-- ==== Sys2Proof/Word.lean ====
section
/-! DEFINITION. The two data widths of the core: the byte of memory and of an instruction, and the
32-bit word of registers, immediates and addresses (00_scope.md R9, R10). Signed and unsigned
readings, byte order and narrowing stand in Decode.lean and Machine/Ops.lean. -/

namespace Sys2Proof

/-- One byte of memory or of an instruction (20_memory.md R38). -/
abbrev Byte := BitVec 8

/-- A 32-bit pattern: a register, an immediate, an address operand, a stack word (00_scope.md R10). -/
abbrev Word := BitVec 32

end Sys2Proof
end

