-- ==== Sys2Proof/Config.lean ====
section
/-! DEFINITION. What is fixed for the whole life of a core and no instruction changes: MEM_SIZE,
STACK_LIMIT, OPCODE_MAP and INT_MAP (00_scope.md R8, 10_state.md R32). All of it is plain data. The
default maps stand in Decode.lean, the instance `State.reset` uses in Machine/State.lean. -/

namespace Sys2Proof

/-- The 23 mnemonics, in the row order of 30_encoding.md R60. -/
inductive Mnemonic where
  | const | add | neg | mul | div | mod
  | cmp | ja | je | jb | jmp
  | call | ret
  | load | store
  | push | pop | pushAll | popAll | lsp
  | int
  | halt | nop
deriving DecidableEq, Repr

/-- OPCODE_MAP: the opcode byte of each mnemonic (00_scope.md R8; 92_eei_decisions.md D1). -/
structure OpcodeMap where
  const : Byte
  add : Byte
  neg : Byte
  mul : Byte
  div : Byte
  mod : Byte
  cmp : Byte
  ja : Byte
  je : Byte
  jb : Byte
  jmp : Byte
  call : Byte
  ret : Byte
  load : Byte
  store : Byte
  push : Byte
  pop : Byte
  pushAll : Byte
  popAll : Byte
  lsp : Byte
  int : Byte
  halt : Byte
  nop : Byte
deriving DecidableEq, Repr

/-- INT_MAP: the interrupt-number bytes of the two services (30_encoding.md R61; 92_eei_decisions.md D2). -/
structure IntMap where
  printInteger : Byte
  printString : Byte
deriving DecidableEq, Repr

/-- The configuration of one core (00_scope.md R8): sizes already rounded to multiples of 4. -/
structure Config where
  memSize : Nat
  stackLimit : Nat
  opcodes : OpcodeMap
  ints : IntMap
deriving DecidableEq, Repr

end Sys2Proof
end

