-- ==== Sys2Proof/Syntax.lean ====
section
/-! DEFINITION. The instructions as decoding gives them: one constructor per row of
spec/opcode_table.json, operands in encoding order (30_encoding.md R56, R60). A register field and an
interrupt number stay the byte the encoding holds, because an invalid byte is a legal encoding whose
execution raises a fault (30_encoding.md R57, R61, R64, R68). -/

namespace Sys2Proof

/-- An instruction with the operand bytes and words its encoding holds. -/
inductive Instr where
  /-- CONST reg, imm32 (41_arithmetic.md R93). -/
  | const (reg : Byte) (imm : Word)
  /-- ADD src, dst (41_arithmetic.md R94). -/
  | add (src dst : Byte)
  /-- NEG reg (41_arithmetic.md R95). -/
  | neg (reg : Byte)
  /-- MUL src, dst (41_arithmetic.md R96). -/
  | mul (src dst : Byte)
  /-- DIV src, dst: src is the divisor (41_arithmetic.md R97). -/
  | div (src dst : Byte)
  /-- MOD src, dst: src is the divisor (41_arithmetic.md R98). -/
  | mod (src dst : Byte)
  /-- CMP r1, r2 (42_compare_branch.md R106). -/
  | cmp (r1 r2 : Byte)
  /-- JA addr32 (42_compare_branch.md R108). -/
  | ja (addr : Word)
  /-- JE addr32 (42_compare_branch.md R109). -/
  | je (addr : Word)
  /-- JB addr32 (42_compare_branch.md R110). -/
  | jb (addr : Word)
  /-- JMP addr32 (42_compare_branch.md R111). -/
  | jmp (addr : Word)
  /-- CALL addr32 (43_subroutine.md R116). -/
  | call (addr : Word)
  /-- RET (43_subroutine.md R118). -/
  | ret
  /-- LOAD reg, addr32 (44_load_store.md R123). -/
  | load (reg : Byte) (addr : Word)
  /-- STORE reg, addr32 (44_load_store.md R124). -/
  | store (reg : Byte) (addr : Word)
  /-- PUSH reg (45_stack.md R128). -/
  | push (reg : Byte)
  /-- POP reg (45_stack.md R130). -/
  | pop (reg : Byte)
  /-- PUSH_ALL (45_stack.md R133). -/
  | pushAll
  /-- POP_ALL (45_stack.md R135). -/
  | popAll
  /-- LSP reg (45_stack.md R137). -/
  | lsp (reg : Byte)
  /-- INT intno (46_interrupt_service.md R142). -/
  | int (intno : Byte)
  /-- HALT (47_control.md R149). -/
  | halt
  /-- NOP (47_control.md R150). -/
  | nop
deriving DecidableEq, Repr

end Sys2Proof
end

