-- ==== Sys2Proof/Decode.lean ====
section
/-! DEFINITION. The instruction encodings (30_encoding.md): formats and lengths, the opcode map and the
dispatch table, the decoder, and after it the encoder written from the same tables. -/

namespace Sys2Proof

/-! ### The opcode dispatch table (30_encoding.md R60, R66, R67) -/

/-- Every mnemonic, in the row order of 30_encoding.md R60. -/
def Mnemonic.all : List Mnemonic :=
  [.const, .add, .neg, .mul, .div, .mod, .cmp, .ja, .je, .jb, .jmp, .call, .ret,
   .load, .store, .push, .pop, .pushAll, .popAll, .lsp, .int, .halt, .nop]

/-- The opcode byte the map gives a mnemonic. -/
def OpcodeMap.byte (m : OpcodeMap) : Mnemonic → Byte
  | .const => m.const
  | .add => m.add
  | .neg => m.neg
  | .mul => m.mul
  | .div => m.div
  | .mod => m.mod
  | .cmp => m.cmp
  | .ja => m.ja
  | .je => m.je
  | .jb => m.jb
  | .jmp => m.jmp
  | .call => m.call
  | .ret => m.ret
  | .load => m.load
  | .store => m.store
  | .push => m.push
  | .pop => m.pop
  | .pushAll => m.pushAll
  | .popAll => m.popAll
  | .lsp => m.lsp
  | .int => m.int
  | .halt => m.halt
  | .nop => m.nop

/-- The default OPCODE_MAP (30_encoding.md R60). PRESUMED by the spec itself: its bytes are general
knowledge (92_eei_decisions.md D1); unsafe for a claim about one binary; log entry 3. -/
def OpcodeMap.default : OpcodeMap where
  const := 0x32
  add := 0x01
  neg := 0x02
  mul := 0x03
  div := 0x04
  mod := 0x05
  cmp := 0x10
  ja := 0x11
  je := 0x12
  jb := 0x13
  jmp := 0x14
  call := 0x20
  ret := 0x21
  load := 0x30
  store := 0x31
  push := 0x50
  pop := 0x52
  pushAll := 0x51
  popAll := 0x53
  lsp := 0x54
  int := 0x41
  halt := 0x40
  nop := 0x42

/-- The default INT_MAP (30_encoding.md R61). PRESUMED by the spec itself (92_eei_decisions.md D2);
unsafe for a claim about one binary; log entry 4. -/
def IntMap.default : IntMap where
  printInteger := 0x01
  printString := 0x02

/-- What any OPCODE_MAP must satisfy: no two mnemonics share a byte, and 0xFF is unassigned
(30_encoding.md R67). -/
abbrev OpcodeMap.wf (m : OpcodeMap) : Prop :=
  (Mnemonic.all.map m.byte).Nodup ∧ (0xFF : Byte) ∉ Mnemonic.all.map m.byte

/-- What any INT_MAP must satisfy: two distinct bytes (92_eei_decisions.md D2). -/
abbrev IntMap.wf (m : IntMap) : Prop := m.printInteger ≠ m.printString

/-- What construction asks of a configuration (70_reset_and_hazards.md R179; 30_encoding.md R67): sizes
that are multiples of 4 within their bounds, and admissible maps. -/
abbrev Config.wf (c : Config) : Prop :=
  c.memSize % 4 = 0 ∧ c.stackLimit % 4 = 0 ∧ c.memSize ≤ 2 ^ 31 - 4 ∧ c.stackLimit ≤ c.memSize ∧
    c.opcodes.wf ∧ c.ints.wf

/-- The entry of the 256-entry dispatch table at a byte: none where the byte is unassigned
(30_encoding.md R66). -/
def OpcodeMap.lookup (m : OpcodeMap) (op : Byte) : Option Mnemonic :=
  Mnemonic.all.find? (fun k => m.byte k == op)

/-! ### Formats and lengths (30_encoding.md R56, R60, R62) -/

/-- The length in bytes of each mnemonic, the opcode byte included (30_encoding.md R60). -/
def Mnemonic.length : Mnemonic → Nat
  | .const => 6
  | .add => 3
  | .neg => 2
  | .mul => 3
  | .div => 3
  | .mod => 3
  | .cmp => 3
  | .ja => 5
  | .je => 5
  | .jb => 5
  | .jmp => 5
  | .call => 5
  | .ret => 1
  | .load => 6
  | .store => 6
  | .push => 2
  | .pop => 2
  | .pushAll => 1
  | .popAll => 1
  | .lsp => 2
  | .int => 2
  | .halt => 1
  | .nop => 1

/-- The longest instruction, in bytes (30_encoding.md R54). -/
def maxInstrLength : Nat := 6

/-- The mnemonic of an instruction. -/
def Instr.mnemonic : Instr → Mnemonic
  | .const _ _ => .const
  | .add _ _ => .add
  | .neg _ => .neg
  | .mul _ _ => .mul
  | .div _ _ => .div
  | .mod _ _ => .mod
  | .cmp _ _ => .cmp
  | .ja _ => .ja
  | .je _ => .je
  | .jb _ => .jb
  | .jmp _ => .jmp
  | .call _ => .call
  | .ret => .ret
  | .load _ _ => .load
  | .store _ _ => .store
  | .push _ => .push
  | .pop _ => .pop
  | .pushAll => .pushAll
  | .popAll => .popAll
  | .lsp _ => .lsp
  | .int _ => .int
  | .halt => .halt
  | .nop => .nop

/-! ### Byte order (20_memory.md R39, R40, R42) -/

/-- The word whose bits 7:0 are `b0`, 15:8 `b1`, 23:16 `b2` and 31:24 `b3`: little-endian
(20_memory.md R39). -/
def le32 (b0 b1 b2 b3 : Byte) : Word := b3 ++ b2 ++ b1 ++ b0

/-- Byte `k` of a word, its bits 8k+7 down to 8k (20_memory.md R40). -/
def wordByte (w : Word) (k : Nat) : Byte := w.extractLsb' (8 * k) 8

/-! ### The decoder (30_encoding.md R55 to R59, R68) -/

/-- Format N: no operand bytes (30_encoding.md R56). -/
def parseN (i : Instr) (bs : List Byte) : Option (Instr × List Byte) := some (i, bs)

/-- Formats R and I: one operand byte (30_encoding.md R56). -/
def parseR (mk : Byte → Instr) : List Byte → Option (Instr × List Byte)
  | a :: rest => some (mk a, rest)
  | [] => none

/-- Format RR: two operand bytes (30_encoding.md R56). -/
def parseRR (mk : Byte → Byte → Instr) : List Byte → Option (Instr × List Byte)
  | a :: b :: rest => some (mk a b, rest)
  | _ => none

/-- Format A: a four-byte little-endian address (30_encoding.md R56, R59). -/
def parseA (mk : Word → Instr) : List Byte → Option (Instr × List Byte)
  | a0 :: a1 :: a2 :: a3 :: rest => some (mk (le32 a0 a1 a2 a3), rest)
  | _ => none

/-- Format RI: a register byte, then four little-endian bytes (30_encoding.md R56, R58, R59). -/
def parseRI (mk : Byte → Word → Instr) : List Byte → Option (Instr × List Byte)
  | r :: v0 :: v1 :: v2 :: v3 :: rest => some (mk r (le32 v0 v1 v2 v3), rest)
  | _ => none

/-- The instruction of a mnemonic from the bytes after its opcode, with the bytes left over; none where
there are too few bytes. The operand values are whatever the bytes hold (30_encoding.md R68). -/
def Mnemonic.parse : Mnemonic → List Byte → Option (Instr × List Byte)
  | .const, bs => parseRI .const bs
  | .add, bs => parseRR .add bs
  | .neg, bs => parseR .neg bs
  | .mul, bs => parseRR .mul bs
  | .div, bs => parseRR .div bs
  | .mod, bs => parseRR .mod bs
  | .cmp, bs => parseRR .cmp bs
  | .ja, bs => parseA .ja bs
  | .je, bs => parseA .je bs
  | .jb, bs => parseA .jb bs
  | .jmp, bs => parseA .jmp bs
  | .call, bs => parseA .call bs
  | .ret, bs => parseN .ret bs
  | .load, bs => parseRI .load bs
  | .store, bs => parseRI .store bs
  | .push, bs => parseR .push bs
  | .pop, bs => parseR .pop bs
  | .pushAll, bs => parseN .pushAll bs
  | .popAll, bs => parseN .popAll bs
  | .lsp, bs => parseR .lsp bs
  | .int, bs => parseR .int bs
  | .halt, bs => parseN .halt bs
  | .nop, bs => parseN .nop bs

/-- Why the decoder gives no instruction. -/
inductive DecodeError where
  /-- No byte at all: at the program counter this is step (1) failing (40_dispatch.md R77). -/
  | noByte
  /-- The opcode byte is unassigned (30_encoding.md R63; 40_dispatch.md R79). -/
  | unassigned (op : Byte)
  /-- The opcode is assigned and its span does not fit the bytes given (40_dispatch.md R80). -/
  | truncated (m : Mnemonic)
deriving DecidableEq, Repr

/-- Decoding, total on every list of bytes: the instruction at its head with the bytes after it, or the
named reason there is none. The opcode is looked up before the span is checked (30_encoding.md R65, R68;
40_dispatch.md R79, R80). -/
def decode (m : OpcodeMap) : List Byte → Except DecodeError (Instr × List Byte)
  | [] => .error .noByte
  | op :: rest =>
    match m.lookup op with
    | none => .error (.unassigned op)
    | some k =>
      match k.parse rest with
      | none => .error (.truncated k)
      | some r => .ok r

/-! ### The encoder (30_encoding.md R56, R60) -/

/-- The four bytes of a word, lowest address first (20_memory.md R40). -/
def wordBytes (w : Word) : List Byte := [wordByte w 0, wordByte w 1, wordByte w 2, wordByte w 3]

/-- The operand bytes, in the order of 30_encoding.md R56. -/
def Instr.operandBytes : Instr → List Byte
  | .const r v => r :: wordBytes v
  | .add s d => [s, d]
  | .neg r => [r]
  | .mul s d => [s, d]
  | .div s d => [s, d]
  | .mod s d => [s, d]
  | .cmp a b => [a, b]
  | .ja a => wordBytes a
  | .je a => wordBytes a
  | .jb a => wordBytes a
  | .jmp a => wordBytes a
  | .call a => wordBytes a
  | .ret => []
  | .load r a => r :: wordBytes a
  | .store r a => r :: wordBytes a
  | .push r => [r]
  | .pop r => [r]
  | .pushAll => []
  | .popAll => []
  | .lsp r => [r]
  | .int n => [n]
  | .halt => []
  | .nop => []

/-- The bytes of an instruction under a map, lowest address first (30_encoding.md R54, R56). -/
def encode (m : OpcodeMap) (i : Instr) : List Byte := m.byte i.mnemonic :: i.operandBytes

/-! ### The opcode table's numbering (30_encoding.md R55) -/

/-- The bytes of `insn` read as spec/opcode_table.json numbers its bits: byte k is bits 8k+7 down to 8k,
and every bit from `nbits` up is 0; as many bytes as the longest instruction has. -/
def tableBytes (nbits w : Nat) : List Byte :=
  (List.range maxInstrLength).map fun k => BitVec.ofNat 8 ((w % 2 ^ nbits) / 2 ^ (8 * k))

/-- The instruction the decoder reads, under the default OPCODE_MAP, from the bits `w` of an instruction. -/
def decodeTableWord (nbits w : Nat) : Option Instr :=
  match decode OpcodeMap.default (tableBytes nbits w) with
  | .ok (i, _) => some i
  | .error _ => none

end Sys2Proof
end

