-- ==== Sys2Proof/Machine/State.lean ====
section
/-! DEFINITION. The state of the core as plain data (10_state.md R15 to R34), the reasons a Lean step can
stop, construction, and the state after reset (70_reset_and_hazards.md R176). -/

namespace Sys2Proof

/-- The configuration of the instance `State.reset` constructs: `create(1024, 512)`, the one size the
source names (95_test_vectors.md L1.1), with the default maps. DESIGN CHOICE: MEM_SIZE and STACK_LIMIT are
parameters; unsafe for a claim that rests on these two numbers; log entry 2. -/
def Config.default : Config where
  memSize := 1024
  stackLimit := 512
  opcodes := OpcodeMap.default
  ints := IntMap.default

end Sys2Proof

namespace Sys2Proof.Machine

/-- A register name: R1 is index 0, R4 is index 3 (10_state.md R15). -/
inductive Reg where
  | r1 | r2 | r3 | r4
deriving DecidableEq, Repr

/-- The register file: exactly four independent 32-bit cells (10_state.md R15, R16, R17). -/
structure RegFile where
  r1 : Word
  r2 : Word
  r3 : Word
  r4 : Word
deriving DecidableEq, Repr

/-- The five fault kinds (60_exceptions.md R153). -/
inductive FaultKind where
  | badInstruction | badAccess | invalidRegisterIndex | stackOverflow | stackUnderflow
deriving DecidableEq, Repr

/-- The five sticky fault flags of the status register (10_state.md R26). -/
structure FaultFlags where
  badInstruction : Bool
  badAccess : Bool
  invalidRegisterIndex : Bool
  stackOverflow : Bool
  stackUnderflow : Bool
deriving DecidableEq, Repr

/-- The comparison result (10_state.md R27). -/
inductive CmpResult where
  | none | below | equal | above
deriving DecidableEq, Repr

/-- The run state (10_state.md R29). -/
inductive Run where
  | running | stoppedOk | stoppedFault
deriving DecidableEq, Repr

/-- An event of the console output port (46_interrupt_service.md R141). -/
inductive Event where
  /-- `Int(v)`: the pattern of a signed 32-bit integer. -/
  | int (v : Word)
  /-- `Bytes(bs)`: a byte string without its terminating zero. -/
  | bytes (bs : List Byte)
deriving DecidableEq, Repr

/-- Memory as the list of its non-zero bytes by address. An address that is not listed reads as 0, the
zero fill of construction (20_memory.md R36). -/
abbrev Memory := List Host.Cell

/-- The whole state. `cfg` is the fixed configuration of the core, which no operation writes
(10_state.md R32; DESIGN CHOICE, safe, log entry 1). -/
structure State where
  cfg : Config
  regs : RegFile
  pc : Nat
  sp : Nat
  faults : FaultFlags
  cmp : CmpResult
  run : Run
  mem : Memory
  out : List Event
deriving DecidableEq, Repr

/-- Why `step` answers a Lean fault. A fault the SPEC describes is no Lean fault: it is a next state, in which
`State.raise` has set the flag and stopped the run. -/
inductive Fault where
  /-- Raised by `step` alone, asked of a core whose run is STOPPED_OK: no step is taken from it
  (40_dispatch.md R76; 70_reset_and_hazards.md R185). Safe: log entry 5. -/
  | stoppedOk
  /-- Raised by `step` alone, asked of a core whose run is STOPPED_FAULT: no step is taken from it
  (40_dispatch.md R76; 60_exceptions.md R162). Safe: log entry 5. -/
  | stoppedFault
deriving DecidableEq, Repr

/-- Why an instruction has no meaning in the model. -/
inductive Refusal where
  /-- Raised by an arm of `exec` whose instruction has no meaning yet. Safe. No arm answers it: all 23
  instructions are modelled. -/
  | notModelled (mnemonic : String)
deriving DecidableEq, Repr

/-- All registers 0 (10_state.md R18). -/
def RegFile.zero : RegFile := ⟨0, 0, 0, 0⟩

/-- All fault flags clear (10_state.md R26). -/
def FaultFlags.clear : FaultFlags := ⟨false, false, false, false, false⟩

/-- The state construction leaves, for a configuration (70_reset_and_hazards.md R176). -/
def State.construct (c : Config) : State where
  cfg := c
  regs := RegFile.zero
  pc := 0
  sp := c.memSize
  faults := FaultFlags.clear
  cmp := .none
  run := .running
  mem := []
  out := []

/-- The machine right after reset: the construction of `Config.default`, with no image loaded. -/
def State.reset : State := State.construct Config.default

end Sys2Proof.Machine
end

