-- ==== Sys2Proof/Machine/Ops.lean ====
section
/-! DEFINITION. The named operations over registers, memory, the stack and the output port, and taking a
fault as ONE shared operation (`State.raise`, `complete`). There is no return from a fault: no instruction
resumes a stopped core (60_exceptions.md R162). -/

namespace Sys2Proof.Machine

/-! ### Readings of a 32-bit pattern (00_scope.md R10) -/

/-- `s32(v)`: the two's-complement signed integer of a pattern. -/
def s32 (v : Word) : Int := v.toInt

/-- `u32(v)`: the unsigned integer of a pattern. -/
def u32 (v : Word) : Nat := v.toNat

/-- `w32(n)`: the pattern of an integer reduced modulo 2^32. -/
def w32 (n : Int) : Word := BitVec.ofInt 32 n

/-! ### Registers (10_state.md R15, R17) -/

/-- `x[i]` read. -/
def RegFile.get (f : RegFile) : Reg → Word
  | .r1 => f.r1
  | .r2 => f.r2
  | .r3 => f.r3
  | .r4 => f.r4

/-- `x[i] <- v`. -/
def RegFile.set (f : RegFile) (r : Reg) (v : Word) : RegFile :=
  match r with
  | .r1 => { f with r1 := v }
  | .r2 => { f with r2 := v }
  | .r3 => { f with r3 := v }
  | .r4 => { f with r4 := v }

/-- A register of the state. -/
def State.reg (s : State) (r : Reg) : Word := s.regs.get r

/-- Writing a register of the state. -/
def State.setReg (s : State) (r : Reg) (v : Word) : State := { s with regs := s.regs.set r v }

/-- `pc <- pc + len`, the fall-through (40_dispatch.md R83). -/
def State.advance (s : State) (len : Nat) : State := { s with pc := s.pc + len }

/-! ### Memory as a list (20_memory.md R36, R38 to R40) -/

/-- The byte at an address: the listed one, else 0. -/
def Memory.read : Memory → Nat → Byte
  | [], _ => 0
  | (k, v) :: rest, a => if k = a then v else Memory.read rest a

/-- The list without any entry for an address. -/
def Memory.erase : Memory → Nat → Memory
  | [], _ => []
  | (k, v) :: rest, a => if k = a then Memory.erase rest a else (k, v) :: Memory.erase rest a

/-- The list with an entry put before the first higher address. -/
def Memory.insert : Memory → Nat → Byte → Memory
  | [], a, b => [(a, b)]
  | (k, v) :: rest, a, b => if a < k then (a, b) :: (k, v) :: rest else (k, v) :: Memory.insert rest a b

/-- `mem[a] <- b`. Writing 0, the value of an unlisted address, leaves no entry. -/
def Memory.write (m : Memory) (a : Nat) (b : Byte) : Memory :=
  if b = 0 then m.erase a else (m.erase a).insert a b

/-- The canonical form: addresses strictly rising, and no entry equal to what an unlisted address reads as. -/
abbrev Memory.wf (m : Memory) : Prop :=
  m.Pairwise (fun c d => c.1 < d.1) ∧ ∀ c ∈ m, c.2 ≠ 0

/-- Every listed address lies below a size (20_memory.md R41). -/
abbrev Memory.within (m : Memory) (size : Nat) : Prop := ∀ c ∈ m, c.1 < size

/-- `MemRead(a, 4)`: four bytes, little-endian (00_scope.md R13; 20_memory.md R39). -/
def Memory.readWord (m : Memory) (a : Nat) : Word :=
  le32 (m.read a) (m.read (a + 1)) (m.read (a + 2)) (m.read (a + 3))

/-- `MemWrite(a, 4, v)`: four bytes, little-endian (00_scope.md R13; 20_memory.md R40). -/
def Memory.writeWord (m : Memory) (a : Nat) (v : Word) : Memory :=
  (((m.write a (wordByte v 0)).write (a + 1) (wordByte v 1)).write (a + 2) (wordByte v 2)).write
    (a + 3) (wordByte v 3)

/-- The `n` bytes from an address on, in increasing address order (20_memory.md R42). -/
def Memory.readBytes (m : Memory) : Nat → Nat → List Byte
  | _, 0 => []
  | a, n + 1 => m.read a :: Memory.readBytes m (a + 1) n

/-- The bytes of a list written from an address on, those at or above `size` left out. -/
def Memory.writeBytes (size : Nat) : Memory → Nat → List Byte → Memory
  | m, _, [] => m
  | m, a, b :: rest => Memory.writeBytes size (if a < size then m.write a b else m) (a + 1) rest

/-! ### Taking a fault (00_scope.md R14; 40_dispatch.md R84; 60_exceptions.md R160) -/

/-- The flag of a fault kind set, the others kept. -/
def FaultFlags.set (f : FaultFlags) : FaultKind → FaultFlags
  | .badInstruction => { f with badInstruction := true }
  | .badAccess => { f with badAccess := true }
  | .invalidRegisterIndex => { f with invalidRegisterIndex := true }
  | .stackOverflow => { f with stackOverflow := true }
  | .stackUnderflow => { f with stackUnderflow := true }

/-- Whether the flag of a fault kind is set. -/
def FaultFlags.has (f : FaultFlags) : FaultKind → Bool
  | .badInstruction => f.badInstruction
  | .badAccess => f.badAccess
  | .invalidRegisterIndex => f.invalidRegisterIndex
  | .stackOverflow => f.stackOverflow
  | .stackUnderflow => f.stackUnderflow

/-- `raise F`: the sticky flag is set and the run stops; nothing else changes, so `pc` still holds the
address of the faulting instruction (00_scope.md R14; 60_exceptions.md R157, R160). -/
def State.raise (s : State) (f : FaultKind) : State :=
  { s with faults := s.faults.set f, run := .stoppedFault }

/-- A check that must pass before the first write of a step, or its fault (00_scope.md R14). -/
def check (p : Prop) [Decidable p] (f : FaultKind) : Except FaultKind Unit :=
  if p then .ok () else .error f

/-- The end of every meaning, all or nothing: either all of the rule's writes, or the fault taken on the state
the step began with (40_dispatch.md R84). -/
def complete (s : State) (r : Except FaultKind State) : Host.Outcome State Fault Refusal :=
  match r with
  | .ok t => .next t
  | .error f => .next (s.raise f)

/-! ### Data accesses (20_memory.md R41) -/

/-- A word read that must lie inside memory. -/
def State.loadWord (s : State) (a : Nat) : Except FaultKind Word := do
  check (a + 4 ≤ s.cfg.memSize) .badAccess
  return s.mem.readWord a

/-- A word write that must lie inside memory. -/
def State.storeWord (s : State) (a : Nat) (v : Word) : Except FaultKind State := do
  check (a + 4 ≤ s.cfg.memSize) .badAccess
  return { s with mem := s.mem.writeWord a v }

/-! ### The stack (45_stack.md R127) -/

/-- Pushing a word: decrement, then write at the new `sp`. Used after a headroom check, so `sp` is at
least 4. -/
def State.pushWord (s : State) (v : Word) : Except FaultKind State := do
  let t ← s.storeWord (s.sp - 4) v
  return { t with sp := s.sp - 4 }

/-- The word on top of the stack, or STACK_UNDERFLOW where the stack is empty (43_subroutine.md R118;
45_stack.md R130). -/
def State.topWord (s : State) : Except FaultKind Word := do
  check (s.sp + 4 ≤ s.cfg.memSize) .stackUnderflow
  s.loadWord s.sp

/-- The `sp` side of popping one word. -/
def State.dropWord (s : State) : State := { s with sp := s.sp + 4 }

/-! ### The output port (46_interrupt_service.md R141) -/

/-- `emit(e)`: the event is appended, oldest first. -/
def State.emit (s : State) (e : Event) : State := { s with out := s.out ++ [e] }

/-- The bytes from an address up to, not including, the first zero byte among the next `n`; none where there
is no zero among them (46_interrupt_service.md R146). -/
def Memory.scan (m : Memory) : Nat → Nat → Option (List Byte)
  | _, 0 => none
  | a, n + 1 =>
    if m.read a = 0 then some [] else (Memory.scan m (a + 1) n).map (fun bs => m.read a :: bs)

/-- The zero-terminated string at an address, scanned inside memory only; BAD_ACCESS where none ends below
MEM_SIZE, an address at or above it included (46_interrupt_service.md R146, R147). -/
def State.stringAt (s : State) (a : Nat) : Except FaultKind (List Byte) :=
  match s.mem.scan a (s.cfg.memSize - a) with
  | some bs => .ok bs
  | none => .error .badAccess

end Sys2Proof.Machine
end

