-- ==== Sys2Proof/Machine/Operands.lean ====
section
/-! DEFINITION. Every operand form and its check of step (5) (40_dispatch.md R81, R82): register fields,
the interrupt number, data addresses and control-transfer targets. The 32-bit immediate needs no check
(30_encoding.md R58). -/

namespace Sys2Proof.Machine

/-- The register index byte of a register (10_state.md R15). -/
def Reg.byte : Reg → Byte
  | .r1 => 0
  | .r2 => 1
  | .r3 => 2
  | .r4 => 3

/-- The register a field's byte selects: 0 to 3 only, no bit ignored (30_encoding.md R57). -/
def Reg.ofByte? (b : Byte) : Option Reg :=
  if b = 0 then some .r1
  else if b = 1 then some .r2
  else if b = 2 then some .r3
  else if b = 3 then some .r4
  else none

/-- Step (5a): a register field, or INVALID_REGISTER_INDEX (40_dispatch.md R81). -/
def regOperand (b : Byte) : Except FaultKind Reg :=
  match Reg.ofByte? b with
  | some r => .ok r
  | none => .error .invalidRegisterIndex

/-- The two console services (46_interrupt_service.md R143). -/
inductive Service where
  | printInteger | printString
deriving DecidableEq, Repr

/-- Step (5b), INT: the service of an interrupt number, or BAD_INSTRUCTION (40_dispatch.md R82;
46_interrupt_service.md R142, R143). -/
def serviceOperand (ints : IntMap) (n : Byte) : Except FaultKind Service :=
  if n = ints.printInteger then .ok .printInteger
  else if n = ints.printString then .ok .printString
  else .error .badInstruction

/-- Step (5b), LOAD and STORE: the absolute unsigned address, or BAD_ACCESS where its word does not lie
inside memory (40_dispatch.md R82; 30_encoding.md R59; 44_load_store.md R125). -/
def dataAddress (s : State) (addr : Word) : Except FaultKind Nat := do
  check (u32 addr + 4 ≤ s.cfg.memSize) .badAccess
  return u32 addr

/-- Step (5b), JA, JE, JB, JMP and CALL: the absolute target, or BAD_ACCESS where it is not below MEM_SIZE;
checked whether or not a branch is taken (40_dispatch.md R82; 42_compare_branch.md R112). -/
def jumpTarget (s : State) (addr : Word) : Except FaultKind Nat := do
  check (u32 addr < s.cfg.memSize) .badAccess
  return u32 addr

end Sys2Proof.Machine
end

