-- ==== Sys2Proof/Machine/Arithmetic.lean ====
section
/-! DEFINITION. CONST, ADD, NEG, MUL, DIV, MOD (41_arithmetic.md). Results are computed exactly on the signed
readings and narrowed at the end; none of them touches `cmp`, `sp`, memory or `out` (R91, R92, R99). -/

namespace Sys2Proof.Machine

/-- The execute phase of a three-byte register operation `dst <- f(dst, src)` that cannot fail. -/
def State.combine (s : State) (f : Int → Int → Int) (src dst : Reg) : State :=
  (s.setReg dst (w32 (f (s32 (s.reg dst)) (s32 (s.reg src))))).advance 3

/-- The quotient rounded toward zero (41_arithmetic.md R92). -/
def quotient (a b : Int) : Int := a.tdiv b

/-- The remainder `a - b * trunc(a / b)` (41_arithmetic.md R92, R98). -/
def remainder (a b : Int) : Int := a - b * quotient a b

/-- CONST (41_arithmetic.md R93). -/
def execConst (reg : Byte) (imm : Word) (s : State) : Host.Outcome State Fault Refusal :=
  complete s do
    let r ← regOperand reg
    return (s.setReg r imm).advance 6

/-- ADD (41_arithmetic.md R94). -/
def execAdd (src dst : Byte) (s : State) : Host.Outcome State Fault Refusal :=
  complete s do
    let a ← regOperand src
    let d ← regOperand dst
    return s.combine (fun x y => x + y) a d

/-- NEG (41_arithmetic.md R95). -/
def execNeg (reg : Byte) (s : State) : Host.Outcome State Fault Refusal :=
  complete s do
    let r ← regOperand reg
    return (s.setReg r (w32 (0 - s32 (s.reg r)))).advance 2

/-- MUL (41_arithmetic.md R96). -/
def execMul (src dst : Byte) (s : State) : Host.Outcome State Fault Refusal :=
  complete s do
    let a ← regOperand src
    let d ← regOperand dst
    return s.combine (fun x y => x * y) a d

/-- DIV; a zero divisor raises BAD_ACCESS (41_arithmetic.md R97). -/
def execDiv (src dst : Byte) (s : State) : Host.Outcome State Fault Refusal :=
  complete s do
    let a ← regOperand src
    let d ← regOperand dst
    check (s32 (s.reg a) ≠ 0) .badAccess
    return s.combine quotient a d

/-- MOD; a zero divisor raises BAD_ACCESS (41_arithmetic.md R98). -/
def execMod (src dst : Byte) (s : State) : Host.Outcome State Fault Refusal :=
  complete s do
    let a ← regOperand src
    let d ← regOperand dst
    check (s32 (s.reg a) ≠ 0) .badAccess
    return s.combine remainder a d

end Sys2Proof.Machine
end

