-- ==== Sys2Proof/Machine/Flags.lean ====
section
/-! DEFINITION. The status register: the one flag computation of the ISA (the comparison result), the branch
conditions that read it, the fault codes, and the host's status word. There are no carry, overflow, zero or
sign flags (41_arithmetic.md R99). -/

namespace Sys2Proof.Machine

/-- What CMP leaves: the signed order of its two operands (42_compare_branch.md R106). -/
def compareSigned (a b : Word) : CmpResult :=
  if s32 a < s32 b then .below
  else if s32 a = s32 b then .equal
  else .above

/-- The execute phase of a conditional branch of 5 bytes: the target where the comparison result is the one
it waits for, else the fall-through; NONE is never waited for (42_compare_branch.md R107 to R110). -/
def State.branchOn (s : State) (want : CmpResult) (target : Nat) : State :=
  if s.cmp = want then { s with pc := target } else s.advance 5

/-- The code of a fault kind, its bit number in the status word (60_exceptions.md R153). -/
def FaultKind.code : FaultKind → Nat
  | .badInstruction => 0
  | .badAccess => 1
  | .invalidRegisterIndex => 2
  | .stackOverflow => 3
  | .stackUnderflow => 4

/-- The two-bit code of a comparison result in the status word (10_state.md R28). -/
def CmpResult.code : CmpResult → Nat
  | .none => 0
  | .below => 1
  | .equal => 2
  | .above => 3

/-- The status register as the host's one word: faults in bits 4:0, the comparison result in bits 6:5, the
rest 0 (10_state.md R28). -/
def State.statusWord (s : State) : Word :=
  BitVec.ofNat 32
    (s.faults.badInstruction.toNat + 2 * s.faults.badAccess.toNat + 4 * s.faults.invalidRegisterIndex.toNat
      + 8 * s.faults.stackOverflow.toNat + 16 * s.faults.stackUnderflow.toNat + 32 * s.cmp.code)

end Sys2Proof.Machine
end

