-- ==== Sys2Proof/Machine/CompareBranch.lean ====
section
/-! DEFINITION. CMP, JA, JE, JB, JMP (42_compare_branch.md). A target is checked in step (5b), taken or not. -/

namespace Sys2Proof.Machine

/-- CMP (42_compare_branch.md R106). -/
def execCmp (r1 r2 : Byte) (s : State) : Host.Outcome State Fault Refusal :=
  complete s do
    let a ← regOperand r1
    let b ← regOperand r2
    return { s.advance 3 with cmp := compareSigned (s.reg a) (s.reg b) }

/-- JA (42_compare_branch.md R108). -/
def execJa (addr : Word) (s : State) : Host.Outcome State Fault Refusal :=
  complete s do
    let target ← jumpTarget s addr
    return s.branchOn .above target

/-- JE (42_compare_branch.md R109). -/
def execJe (addr : Word) (s : State) : Host.Outcome State Fault Refusal :=
  complete s do
    let target ← jumpTarget s addr
    return s.branchOn .equal target

/-- JB (42_compare_branch.md R110). -/
def execJb (addr : Word) (s : State) : Host.Outcome State Fault Refusal :=
  complete s do
    let target ← jumpTarget s addr
    return s.branchOn .below target

/-- JMP (42_compare_branch.md R111). -/
def execJmp (addr : Word) (s : State) : Host.Outcome State Fault Refusal :=
  complete s do
    let target ← jumpTarget s addr
    return { s with pc := target }

end Sys2Proof.Machine
end

