-- ==== Sys2Proof/Machine/Control.lean ====
section
/-! DEFINITION. HALT and NOP (47_control.md). -/

namespace Sys2Proof.Machine

/-- HALT: the program counter moves on and the run stops cleanly (47_control.md R149). -/
def execHalt (s : State) : Host.Outcome State Fault Refusal :=
  complete s (.ok { s.advance 1 with run := .stoppedOk })

/-- NOP: no effect but the program counter's advance (47_control.md R150). -/
def execNop (s : State) : Host.Outcome State Fault Refusal :=
  complete s (.ok (s.advance 1))

end Sys2Proof.Machine
end

