-- ==== Sys2Proof/Machine/Interrupt.lean ====
section
/-! DEFINITION. INT and its two services (46_interrupt_service.md): a synchronous console service inside its own
step, with no saved state, no mode, no vector (R148). -/

namespace Sys2Proof.Machine

/-- PRINT_INTEGER: pop a word and send it (46_interrupt_service.md R144). -/
def State.printInteger (s : State) : Except FaultKind State := do
  let v ← s.topWord
  return (s.dropWord.emit (.int v)).advance 2

/-- PRINT_STRING: pop an address and send the zero-terminated string there; the underflow check comes first, and
nothing is popped or sent unless the string ends inside memory (46_interrupt_service.md R146, R147). -/
def State.printString (s : State) : Except FaultKind State := do
  let v ← s.topWord
  let bs ← s.stringAt (u32 v)
  return (s.dropWord.emit (.bytes bs)).advance 2

/-- INT (46_interrupt_service.md R142, R143). -/
def execInt (intno : Byte) (s : State) : Host.Outcome State Fault Refusal :=
  complete s do
    let service ← serviceOperand s.cfg.ints intno
    match service with
    | .printInteger => s.printInteger
    | .printString => s.printString

end Sys2Proof.Machine
end

