-- ==== Sys2Proof/Machine/LoadStore.lean ====
section
/-! DEFINITION. LOAD and STORE (44_load_store.md): absolute addressing, 32 bits, any alignment. -/

namespace Sys2Proof.Machine

/-- LOAD (44_load_store.md R123). -/
def execLoad (reg : Byte) (addr : Word) (s : State) : Host.Outcome State Fault Refusal :=
  complete s do
    let r ← regOperand reg
    let a ← dataAddress s addr
    let v ← s.loadWord a
    return (s.setReg r v).advance 6

/-- STORE (44_load_store.md R124). -/
def execStore (reg : Byte) (addr : Word) (s : State) : Host.Outcome State Fault Refusal :=
  complete s do
    let r ← regOperand reg
    let a ← dataAddress s addr
    let t ← s.storeWord a (s.reg r)
    return t.advance 6

end Sys2Proof.Machine
end

