-- ==== Sys2Proof/Machine/Stack.lean ====
section
/-! DEFINITION. PUSH, POP, PUSH_ALL, POP_ALL, LSP (45_stack.md). The bounds are the spec's inequalities in
exact integer arithmetic: `sp - n > STACK_LIMIT` is written `STACK_LIMIT + n < sp` (00_scope.md R11). -/

namespace Sys2Proof.Machine

/-- PUSH: the headroom test is strict (45_stack.md R128, R129). -/
def execPush (reg : Byte) (s : State) : Host.Outcome State Fault Refusal :=
  complete s do
    let r ← regOperand reg
    check (s.cfg.stackLimit + 4 < s.sp) .stackOverflow
    let t ← s.pushWord (s.reg r)
    return t.advance 2

/-- POP (45_stack.md R130). -/
def execPop (reg : Byte) (s : State) : Host.Outcome State Fault Refusal :=
  complete s do
    let r ← regOperand reg
    let v ← s.topWord
    return (s.dropWord.setReg r v).advance 2

/-- PUSH_ALL: R1 at `sp - 4` down to R4 at `sp - 16`, or nothing (45_stack.md R132, R133). -/
def execPushAll (s : State) : Host.Outcome State Fault Refusal :=
  complete s do
    check (s.cfg.stackLimit + 16 < s.sp) .stackOverflow
    let t1 ← s.storeWord (s.sp - 4) (s.reg .r1)
    let t2 ← t1.storeWord (s.sp - 8) (s.reg .r2)
    let t3 ← t2.storeWord (s.sp - 12) (s.reg .r3)
    let t4 ← t3.storeWord (s.sp - 16) (s.reg .r4)
    return { t4.advance 1 with sp := s.sp - 16 }

/-- POP_ALL: R4 from `sp` up to R1 from `sp + 12`, or nothing (45_stack.md R132, R135). -/
def execPopAll (s : State) : Host.Outcome State Fault Refusal :=
  complete s do
    check (s.sp + 16 ≤ s.cfg.memSize) .stackUnderflow
    let v4 ← s.loadWord s.sp
    let v3 ← s.loadWord (s.sp + 4)
    let v2 ← s.loadWord (s.sp + 8)
    let v1 ← s.loadWord (s.sp + 12)
    return { s.advance 1 with regs := ⟨v1, v2, v3, v4⟩, sp := s.sp + 16 }

/-- LSP (45_stack.md R137). -/
def execLsp (reg : Byte) (s : State) : Host.Outcome State Fault Refusal :=
  complete s do
    let r ← regOperand reg
    return (s.setReg r (w32 (s.sp : Int))).advance 2

end Sys2Proof.Machine
end

