-- ==== Sys2Proof/Machine/Subroutine.lean ====
section
/-! DEFINITION. CALL and RET (43_subroutine.md). -/

namespace Sys2Proof.Machine

/-- CALL: the target is checked before the headroom, `sp - 4 ≥ STACK_LIMIT` in exact arithmetic; then the
address after the CALL is pushed (43_subroutine.md R116, R117). -/
def execCall (addr : Word) (s : State) : Host.Outcome State Fault Refusal :=
  complete s do
    let target ← jumpTarget s addr
    check (s.cfg.stackLimit + 4 ≤ s.sp) .stackOverflow
    let t ← s.pushWord (w32 ((s.pc + 5 : Nat) : Int))
    return { t with pc := target }

/-- RET: the popped word becomes the program counter, unchecked here (43_subroutine.md R118). -/
def execRet (s : State) : Host.Outcome State Fault Refusal :=
  complete s do
    let v ← s.topWord
    return { s.dropWord with pc := u32 v }

end Sys2Proof.Machine
end

