-- ==== Sys2Proof/Machine/Dispatch.lean ====
section
/-! DEFINITION. The dispatch of a decoded instruction to its meaning: steps (5) and (6) of 40_dispatch.md R86. -/

namespace Sys2Proof.Machine

/-- Operand validation and the execute phase of one instruction (40_dispatch.md R81 to R84). -/
def exec (i : Instr) (s : State) : Host.Outcome State Fault Refusal :=
  match i with
  | .const reg imm => Sys2Proof.Machine.execConst reg imm s
  | .add src dst => Sys2Proof.Machine.execAdd src dst s
  | .neg reg => Sys2Proof.Machine.execNeg reg s
  | .mul src dst => Sys2Proof.Machine.execMul src dst s
  | .div src dst => Sys2Proof.Machine.execDiv src dst s
  | .mod src dst => Sys2Proof.Machine.execMod src dst s
  | .cmp r1 r2 => Sys2Proof.Machine.execCmp r1 r2 s
  | .ja addr => Sys2Proof.Machine.execJa addr s
  | .je addr => Sys2Proof.Machine.execJe addr s
  | .jb addr => Sys2Proof.Machine.execJb addr s
  | .jmp addr => Sys2Proof.Machine.execJmp addr s
  | .call addr => Sys2Proof.Machine.execCall addr s
  | .ret => Sys2Proof.Machine.execRet s
  | .load reg addr => Sys2Proof.Machine.execLoad reg addr s
  | .store reg addr => Sys2Proof.Machine.execStore reg addr s
  | .push reg => Sys2Proof.Machine.execPush reg s
  | .pop reg => Sys2Proof.Machine.execPop reg s
  | .pushAll => Sys2Proof.Machine.execPushAll s
  | .popAll => Sys2Proof.Machine.execPopAll s
  | .lsp reg => Sys2Proof.Machine.execLsp reg s
  | .int intno => Sys2Proof.Machine.execInt intno s
  | .halt => Sys2Proof.Machine.execHalt s
  | .nop => Sys2Proof.Machine.execNop s

end Sys2Proof.Machine
end

