-- ==== Sys2Proof/Machine/Fetch.lean ====
section
/-! DEFINITION. Steps (1) to (4) of the dispatch loop and the decode that follows them (40_dispatch.md R77 to
R80, R86, R89). -/

namespace Sys2Proof.Machine

/-- The bytes at the program counter that lie inside memory, at most as many as the longest instruction has;
none where `pc ≥ MEM_SIZE` (40_dispatch.md R77, R78). -/
def State.window (s : State) : List Byte :=
  s.mem.readBytes s.pc (min maxInstrLength (s.cfg.memSize - s.pc))

/-- The fault a failing decode of the window stands for: no byte is step (1), an unassigned opcode step (3), a
span that does not fit step (4) (40_dispatch.md R77, R79, R80). -/
def fetchFault : DecodeError → FaultKind
  | .noByte => .badAccess
  | .unassigned _ => .badInstruction
  | .truncated _ => .badAccess

/-- Steps (1) to (4): the instruction at the program counter, read once from the current contents of memory, or
the fault of the first step that fails (40_dispatch.md R86, R87, R89; 20_memory.md R50). -/
def State.fetch (s : State) : Except FaultKind Instr :=
  match decode s.cfg.opcodes s.window with
  | .ok (i, _) => .ok i
  | .error e => .error (fetchFault e)

end Sys2Proof.Machine
end

