-- ==== Sys2Proof/Machine/Step.lean ====
section
/-! DEFINITION. One step of the core (40_dispatch.md R76, R86), and placing an instruction where it is fetched. -/

namespace Sys2Proof.Machine

/-- One step. A stopped core takes none (40_dispatch.md R76; log entry 5); a running one fetches, and either
takes the fetch's fault or runs the instruction (R86). -/
def step (s : State) : Host.Outcome State Fault Refusal :=
  match s.run with
  | .stoppedOk => .fault .stoppedOk
  | .stoppedFault => .fault .stoppedFault
  | .running =>
    match s.fetch with
    | .ok i => exec i s
    | .error f => complete s (.error f)

/-- The state with an instruction's bits, numbered as spec/opcode_table.json numbers them, stored at the program
counter, where the next step fetches (70_reset_and_hazards.md R178; log entry 6). -/
def State.withFetchWord (s : State) (nbits w : Nat) : State :=
  { s with mem := s.mem.writeBytes s.cfg.memSize s.pc (tableBytes nbits w) }

end Sys2Proof.Machine
end

