-- ==== Sys2Proof/Machine/HostPort.lean ====
section
/-! DEFINITION. The host port (70_reset_and_hazards.md R176 to R185): construct, write memory, run, inspect. No step
of the core calls anything here. The host uses the writes before the first step and after the run stops
(20_memory.md R53; log entry 7). -/

namespace Sys2Proof.Machine

/-- The next multiple of 4 (70_reset_and_hazards.md R176). -/
def roundUp4 (n : Nat) : Nat := (n + 3) / 4 * 4

/-- `create(memory_size, stack_limit)` for given maps: both sizes rounded up; none where a bound of R179 or a
condition on the maps fails (70_reset_and_hazards.md R176, R179; 30_encoding.md R67). -/
def State.create (opcodes : OpcodeMap) (ints : IntMap) (memorySize stackLimit : Nat) : Option State :=
  let c : Config := ⟨roundUp4 memorySize, roundUp4 stackLimit, opcodes, ints⟩
  if c.wf then some (State.construct c) else none

/-- Loading a program image: its bytes verbatim from address 0; none where it is longer than memory
(70_reset_and_hazards.md R178). -/
def State.loadImage (s : State) (image : List Byte) : Option State :=
  if image.length ≤ s.cfg.memSize then some { s with mem := s.mem.writeBytes s.cfg.memSize 0 image } else none

/-- A host write of one byte; none outside memory (20_memory.md R37; 70_reset_and_hazards.md R178). -/
def State.hostWriteByte (s : State) (a : Nat) (b : Byte) : Option State :=
  if a < s.cfg.memSize then some { s with mem := s.mem.write a b } else none

/-- A host write of one word; none outside memory (20_memory.md R37; 70_reset_and_hazards.md R183, R184). -/
def State.hostWriteWord (s : State) (a : Nat) (v : Word) : Option State :=
  if a + 4 ≤ s.cfg.memSize then some { s with mem := s.mem.writeWord a v } else none

/-- A host read of one byte; none outside memory (70_reset_and_hazards.md R183). -/
def State.hostReadByte (s : State) (a : Nat) : Option Byte :=
  if a < s.cfg.memSize then some (s.mem.read a) else none

/-- A host read of one word; none outside memory (70_reset_and_hazards.md R183). -/
def State.hostReadWord (s : State) (a : Nat) : Option Word :=
  if a + 4 ≤ s.cfg.memSize then some (s.mem.readWord a) else none

/-- The run: steps while RUNNING, at most `budget` of them. The budget is an argument of the definition and no part
of the core (70_reset_and_hazards.md R181, R182, R190; 40_dispatch.md R85, R88). -/
def State.runFor : Nat → State → State
  | 0, s => s
  | budget + 1, s =>
    match step s with
    | .next t => State.runFor budget t
    | .fault _ => s
    | .refused _ => s

end Sys2Proof.Machine
end

