-- ==== Sys2Proof/Safety.lean ====
section
/-! DEFINITION. The terms claims are stated in: the invariant of every core the host can construct, and the
contracts of the whole instruction set (who writes what), each written from the spec's prose about the machine
and not from the meanings. -/

namespace Sys2Proof.Machine

/-- How many fault flags are set. -/
def FaultFlags.count (f : FaultFlags) : Nat :=
  f.badInstruction.toNat + f.badAccess.toNat + f.invalidRegisterIndex.toNat + f.stackOverflow.toNat
    + f.stackUnderflow.toNat

/-- An event the port may carry: a byte string holds no zero byte (46_interrupt_service.md R141). -/
abbrev Event.wf : Event → Prop
  | .int _ => True
  | .bytes bs => (0 : Byte) ∉ bs

/-- The invariant of a core: an admissible configuration; `sp` a multiple of 4 between STACK_LIMIT and MEM_SIZE
(10_state.md R23, R24); `pc` a 32-bit integer (R20); memory in its canonical form and inside MEM_SIZE (R30);
exactly one fault flag set where the run is STOPPED_FAULT and none elsewhere (R26, R29); only well-formed events
(R31). -/
structure State.Inv (s : State) : Prop where
  cfg_wf : s.cfg.wf
  sp_low : s.cfg.stackLimit ≤ s.sp
  sp_high : s.sp ≤ s.cfg.memSize
  sp_aligned : s.sp % 4 = 0
  pc_lt : s.pc < 2 ^ 32
  mem_wf : s.mem.wf
  mem_within : s.mem.within s.cfg.memSize
  flags : s.faults.count = if s.run = .stoppedFault then 1 else 0
  out_wf : ∀ e ∈ s.out, e.wf

end Sys2Proof.Machine

namespace Sys2Proof

/-- The registers an instruction may write: its destination, all four for POP_ALL (10_state.md R17). -/
def Instr.writesReg : Instr → Machine.Reg → Bool
  | .const d _, r => d == r.byte
  | .add _ d, r => d == r.byte
  | .neg d, r => d == r.byte
  | .mul _ d, r => d == r.byte
  | .div _ d, r => d == r.byte
  | .mod _ d, r => d == r.byte
  | .cmp _ _, _ => false
  | .ja _, _ => false
  | .je _, _ => false
  | .jb _, _ => false
  | .jmp _, _ => false
  | .call _, _ => false
  | .ret, _ => false
  | .load d _, r => d == r.byte
  | .store _ _, _ => false
  | .push _, _ => false
  | .pop d, r => d == r.byte
  | .pushAll, _ => false
  | .popAll, _ => true
  | .lsp d, r => d == r.byte
  | .int _, _ => false
  | .halt, _ => false
  | .nop, _ => false

/-- How far a completed instruction moves `sp` (45_stack.md R138; 10_state.md R25). -/
def Instr.spShift : Instr → Int
  | .const _ _ => 0
  | .add _ _ => 0
  | .neg _ => 0
  | .mul _ _ => 0
  | .div _ _ => 0
  | .mod _ _ => 0
  | .cmp _ _ => 0
  | .ja _ => 0
  | .je _ => 0
  | .jb _ => 0
  | .jmp _ => 0
  | .call _ => -4
  | .ret => 4
  | .load _ _ => 0
  | .store _ _ => 0
  | .push _ => -4
  | .pop _ => 4
  | .pushAll => -16
  | .popAll => 16
  | .lsp _ => 0
  | .int _ => 4
  | .halt => 0
  | .nop => 0

/-- The first address and the number of the bytes an instruction stores to, on the state it begins with; no bytes
for an instruction that stores nothing (20_memory.md R37). -/
def Instr.storeSpan (s : Machine.State) : Instr → Nat × Nat
  | .const _ _ => (0, 0)
  | .add _ _ => (0, 0)
  | .neg _ => (0, 0)
  | .mul _ _ => (0, 0)
  | .div _ _ => (0, 0)
  | .mod _ _ => (0, 0)
  | .cmp _ _ => (0, 0)
  | .ja _ => (0, 0)
  | .je _ => (0, 0)
  | .jb _ => (0, 0)
  | .jmp _ => (0, 0)
  | .call _ => (s.sp - 4, 4)
  | .ret => (0, 0)
  | .load _ _ => (0, 0)
  | .store _ a => (a.toNat, 4)
  | .push _ => (s.sp - 4, 4)
  | .pop _ => (0, 0)
  | .pushAll => (s.sp - 16, 16)
  | .popAll => (0, 0)
  | .lsp _ => (0, 0)
  | .int _ => (0, 0)
  | .halt => (0, 0)
  | .nop => (0, 0)

/-- Whether a completed instruction leaves `pc` at the address after it: all but the control transfers
(10_state.md R21). -/
def Instr.fallsThrough : Instr → Bool
  | .const _ _ => true
  | .add _ _ => true
  | .neg _ => true
  | .mul _ _ => true
  | .div _ _ => true
  | .mod _ _ => true
  | .cmp _ _ => true
  | .ja _ => false
  | .je _ => false
  | .jb _ => false
  | .jmp _ => false
  | .call _ => false
  | .ret => false
  | .load _ _ => true
  | .store _ _ => true
  | .push _ => true
  | .pop _ => true
  | .pushAll => true
  | .popAll => true
  | .lsp _ => true
  | .int _ => true
  | .halt => true
  | .nop => true

end Sys2Proof

namespace Sys2Proof.Machine

/-- Instructions executed one after another, none where one of them stops the run. -/
def State.execAll : List Instr → State → Option State
  | [], s => some s
  | i :: rest, s =>
    match exec i s with
    | .next t => if t.run = .running then State.execAll rest t else none
    | .fault _ => none
    | .refused _ => none

end Sys2Proof.Machine
end

