-- ==== Sys2Proof/WellFormed.lean ====
section
/-! DEFINITION. When an instruction is well formed for a configuration: exactly when none of the operand
checks of step (5) fails (40_dispatch.md R81, R82). The three checks are written here as a reading of the
instruction alone. The machine makes them through Machine/Operands.lean. -/

namespace Sys2Proof

/-- The register fields, in operand order (30_encoding.md R56). -/
def Instr.regFields : Instr → List Byte
  | .const r _ => [r]
  | .add s d => [s, d]
  | .neg r => [r]
  | .mul s d => [s, d]
  | .div s d => [s, d]
  | .mod s d => [s, d]
  | .cmp a b => [a, b]
  | .ja _ => []
  | .je _ => []
  | .jb _ => []
  | .jmp _ => []
  | .call _ => []
  | .ret => []
  | .load r _ => [r]
  | .store r _ => [r]
  | .push r => [r]
  | .pop r => [r]
  | .pushAll => []
  | .popAll => []
  | .lsp r => [r]
  | .int _ => []
  | .halt => []
  | .nop => []

/-- Step (5a): every register field is 0, 1, 2 or 3 (40_dispatch.md R81). -/
def Instr.regsOk (i : Instr) : Bool := i.regFields.all (fun b => decide (b.toNat < 4))

/-- Step (5b), INT: the interrupt number is one of the two of INT_MAP (40_dispatch.md R82). -/
def Instr.intnoOk (ints : IntMap) : Instr → Bool
  | .const _ _ => true
  | .add _ _ => true
  | .neg _ => true
  | .mul _ _ => true
  | .div _ _ => true
  | .mod _ _ => true
  | .cmp _ _ => true
  | .ja _ => true
  | .je _ => true
  | .jb _ => true
  | .jmp _ => true
  | .call _ => true
  | .ret => true
  | .load _ _ => true
  | .store _ _ => true
  | .push _ => true
  | .pop _ => true
  | .pushAll => true
  | .popAll => true
  | .lsp _ => true
  | .int n => n == ints.printInteger || n == ints.printString
  | .halt => true
  | .nop => true

/-- Step (5b), addresses: a data word lies inside memory, a control-transfer target is below MEM_SIZE
(40_dispatch.md R82). -/
def Instr.addrOk (memSize : Nat) : Instr → Bool
  | .const _ _ => true
  | .add _ _ => true
  | .neg _ => true
  | .mul _ _ => true
  | .div _ _ => true
  | .mod _ _ => true
  | .cmp _ _ => true
  | .ja a => decide (a.toNat < memSize)
  | .je a => decide (a.toNat < memSize)
  | .jb a => decide (a.toNat < memSize)
  | .jmp a => decide (a.toNat < memSize)
  | .call a => decide (a.toNat < memSize)
  | .ret => true
  | .load _ a => decide (a.toNat + 4 ≤ memSize)
  | .store _ a => decide (a.toNat + 4 ≤ memSize)
  | .push _ => true
  | .pop _ => true
  | .pushAll => true
  | .popAll => true
  | .lsp _ => true
  | .int _ => true
  | .halt => true
  | .nop => true

/-- Every operand check of step (5) passes (40_dispatch.md R81, R82). -/
def Instr.wellFormed (c : Config) (i : Instr) : Bool :=
  i.regsOk && i.intnoOk c.ints && i.addrOk c.memSize

end Sys2Proof
end

