-- ==== Sys2Proof/Certificates/Slice0/Obligations.lean ====
section
/-! DEFINITION. The statements for the provers. Each docstring names the rules or sections of spec/ it formalises. A
statement that rests on one of the spec's own decisions D<n> says so. Every statement holds for every
configuration the state carries (log entry 1). -/

open Sys2Proof
open Sys2Proof.Machine

/-! ### Construction and the invariant -/

/-- 70_reset_and_hazards.md section 1: the state construction leaves. That the comparison result is NONE is the
spec's decision D11 (log entry 8). -/
def Obligations.ConstructionState : Prop :=
  ∀ c : Config, (State.construct c).cfg = c ∧ (∀ r, (State.construct c).reg r = 0) ∧ (State.construct c).pc = 0 ∧
    (State.construct c).sp = c.memSize ∧ (∀ f, (State.construct c).faults.has f = false) ∧
    (State.construct c).cmp = .none ∧ (State.construct c).run = .running ∧
    (∀ a, (State.construct c).mem.read a = 0) ∧ (State.construct c).out = []

/-- R18: every register is 0 at construction, and reads 0 until an instruction that may write it has run. -/
def Obligations.RegistersZeroUntilWritten : Prop :=
  ∀ (c : Config) (r : Reg), (State.construct c).reg r = 0 ∧
    ∀ (is : List Instr) (t : State), State.execAll is (State.construct c) = some t →
      (∀ i ∈ is, i.writesReg r = false) → t.reg r = 0

/-- R36: every byte is 0 at construction; then the host's image is what memory holds, the bytes past it still 0. -/
def Obligations.MemoryZeroThenImage : Prop :=
  ∀ (c : Config), (∀ a, (State.construct c).mem.read a = 0) ∧
    ∀ (image : List Byte), image.length ≤ c.memSize → ∃ t, (State.construct c).loadImage image = some t ∧
      t = { State.construct c with mem := t.mem } ∧ ∀ a, t.mem.read a = image.getD a 0

/-- 70_reset_and_hazards.md section 1: both sizes are rounded up to the next multiple of 4; a request outside the bounds
is refused. The bounds are the spec's decision D6 (log entry 14). -/
def Obligations.CreateRoundsOrRefuses : Prop :=
  ∀ (o : OpcodeMap) (n : IntMap) (memorySize stackLimit M L : Nat), o.wf → n.wf →
    M % 4 = 0 → memorySize ≤ M → M < memorySize + 4 → L % 4 = 0 → stackLimit ≤ L → L < stackLimit + 4 →
    (M ≤ 2 ^ 31 - 4 → L ≤ M → State.create o n memorySize stackLimit = some (State.construct ⟨M, L, o, n⟩) ∧
      (State.construct ⟨M, L, o, n⟩).Inv) ∧
    (2 ^ 31 - 4 < M ∨ M < L → State.create o n memorySize stackLimit = none)

/-- The reset state satisfies the invariant. Its sizes are the model's choice (log entry 2). -/
def Obligations.ResetSatisfiesInv : Prop := State.reset.Inv

/-- 70_reset_and_hazards.md sections 1 and 3: loading an image and a host write keep the invariant. That a longer image is
refused is the spec's decision D28 (log entry 16). -/
def Obligations.HostWritesKeepInv : Prop :=
  ∀ s : State, s.Inv →
    (∀ image, s.cfg.memSize < image.length → s.loadImage image = none) ∧
    (∀ image t, s.loadImage image = some t → t.Inv ∧ t = { s with mem := t.mem }) ∧
    (∀ a b t, s.hostWriteByte a b = some t → t.Inv ∧ t = { s with mem := t.mem } ∧ t.hostReadByte a = some b) ∧
    (∀ a v t, s.hostWriteWord a v = some t → t.Inv ∧ t = { s with mem := t.mem } ∧ t.hostReadWord a = some v)

/-- 10_state.md sections 2 to 6: every step from a state that meets the invariant gives one that meets it: `sp` stays a
multiple of 4 between STACK_LIMIT and MEM_SIZE, `pc` stays a 32-bit integer, memory stays inside MEM_SIZE, and a fault
flag is set exactly where the run is STOPPED_FAULT, and only one. -/
def Obligations.StepKeepsInv : Prop := ∀ s t : State, s.Inv → step s = .next t → t.Inv

/-- 70_reset_and_hazards.md section 3: a run from a state that meets the invariant keeps it, and a run that has ended is
clean exactly where no fault flag is set. -/
def Obligations.RunKeepsInvAndCleanEndHasNoFlag : Prop :=
  ∀ (budget : Nat) (s : State), s.Inv → (State.runFor budget s).Inv ∧
    ((State.runFor budget s).run ≠ .running →
      ((State.runFor budget s).run = .stoppedOk ↔ ∀ f, (State.runFor budget s).faults.has f = false))

/-! ### Encoding -/

/-- 30_encoding.md sections 1 to 3: under every admissible map, decoding the encoding of any instruction, followed by
any bytes, gives it back with those bytes. -/
def Obligations.DecodeOfEncode : Prop :=
  ∀ m : OpcodeMap, m.wf → ∀ (i : Instr) (rest : List Byte), decode m (encode m i ++ rest) = .ok (i, rest)

/-- 30_encoding.md sections 1 to 3: whatever decodes is, byte for byte, the encoding of what it decodes to. -/
def Obligations.DecodedBytesAreTheEncoding : Prop :=
  ∀ (m : OpcodeMap) (bs rest : List Byte) (i : Instr), decode m bs = .ok (i, rest) → bs = encode m i ++ rest

/-- R68: for every opcode byte and every following bytes, long enough for any instruction, the decoder answers either
"unassigned" or one mnemonic with the fields the bytes hold, and checks no operand value. -/
def Obligations.DecodeIsTotal : Prop :=
  ∀ (m : OpcodeMap) (op : Byte) (bs : List Byte), 5 ≤ bs.length →
    (m.lookup op = none → decode m (op :: bs) = .error (.unassigned op)) ∧
    (∀ k, m.lookup op = some k →
      ∃ i rest, decode m (op :: bs) = .ok (i, rest) ∧ i.mnemonic = k ∧ op :: bs = encode m i ++ rest)

/-- R65: two instructions with the same opcode byte have the same length, the one the table gives. -/
def Obligations.LengthFromOpcodeByte : Prop :=
  ∀ (m : OpcodeMap) (op : Byte) (bs bs' rest rest' : List Byte) (i i' : Instr),
    decode m (op :: bs) = .ok (i, rest) → decode m (op :: bs') = .ok (i', rest') →
    (∃ k, m.lookup op = some k ∧ (encode m i).length = k.length) ∧ (encode m i).length = (encode m i').length

/-- 30_encoding.md section 3: the 233 unassigned bytes of the default map, and 0xFF under every map. The default bytes
are the spec's decision D1 (log entry 3). -/
def Obligations.UnassignedBytes : Prop :=
  (∀ b : Byte, OpcodeMap.default.lookup b = none ↔
    b.toNat = 0 ∨ (0x06 ≤ b.toNat ∧ b.toNat ≤ 0x0F) ∨ (0x15 ≤ b.toNat ∧ b.toNat ≤ 0x1F) ∨
      (0x22 ≤ b.toNat ∧ b.toNat ≤ 0x2F) ∨ (0x33 ≤ b.toNat ∧ b.toNat ≤ 0x3F) ∨
      (0x43 ≤ b.toNat ∧ b.toNat ≤ 0x4F) ∨ 0x55 ≤ b.toNat) ∧
  ∀ m : OpcodeMap, m.wf → m.lookup 0xFF = none

/-- 30_encoding.md section 4: nine of the worked encodings under the default maps (decisions D1, D2, D3, D4;
log entries 3, 4, 14). Every family but CALL and RET, of which section 4 works none out, has one or more. -/
def Obligations.WorkedEncodingsDecode : Prop :=
  decode OpcodeMap.default [0x32, 0x00, 0x64, 0x00, 0x00, 0x00] = .ok (.const Reg.r1.byte 100, []) ∧
  decode OpcodeMap.default [0x32, 0x03, 0xFF, 0xFF, 0xFF, 0xFF] = .ok (.const Reg.r4.byte (-1), []) ∧
  decode OpcodeMap.default [0x01, 0x00, 0x01] = .ok (.add Reg.r1.byte Reg.r2.byte, []) ∧
  decode OpcodeMap.default [0x10, 0x02, 0x03] = .ok (.cmp Reg.r3.byte Reg.r4.byte, []) ∧
  decode OpcodeMap.default [0x14, 0x34, 0x12, 0x00, 0x00] = .ok (.jmp 0x1234, []) ∧
  decode OpcodeMap.default [0x30, 0x01, 0x00, 0x01, 0x00, 0x00] = .ok (.load Reg.r2.byte 256, []) ∧
  decode OpcodeMap.default [0x50, 0x02] = .ok (.push Reg.r3.byte, []) ∧
  decode OpcodeMap.default [0x41, 0x02] = .ok (.int IntMap.default.printString, []) ∧
  decode OpcodeMap.default [0x40] = .ok (.halt, [])

/-! ### The step -/

/-- 40_dispatch.md section 1: a step is taken exactly when the run is RUNNING, and a run of any length from a stopped core
changes nothing. That this holds after HALT too is the spec's decision D18 (log entry 12). That a step asked of a stopped
core answers a Lean fault is the model's choice of a form for "no step" (DESIGN CHOICE, log entry 5). -/
def Obligations.StoppedCoreTakesNoStep : Prop :=
  ∀ s : State, ((∃ t, step s = .next t) ↔ s.run = .running) ∧
    (s.run ≠ .running → (∃ f, step s = .fault f) ∧ ∀ n, State.runFor n s = s)

/-- 40_dispatch.md section 1: where the window at the program counter decodes to an instruction, a running core's step
is the meaning of that instruction, with nothing around it: the meaning itself moves `pc`. -/
def Obligations.StepRunsTheDecodedInstruction : Prop :=
  ∀ (s : State) (i : Instr) (rest : List Byte), s.run = .running →
    decode s.cfg.opcodes s.window = .ok (i, rest) → step s = exec i s

/-- 40_dispatch.md section 1: where the bytes of an instruction stand in memory at the program counter, a running core's
step is the meaning of that instruction. -/
def Obligations.InstructionInMemoryRuns : Prop :=
  ∀ (s : State) (i : Instr), s.run = .running → s.cfg.opcodes.wf →
    s.pc + (encode s.cfg.opcodes i).length ≤ s.cfg.memSize →
    (∀ (k : Nat) (h : k < (encode s.cfg.opcodes i).length), s.mem.read (s.pc + k) = (encode s.cfg.opcodes i)[k]) →
    step s = exec i s

/-- 40_dispatch.md section 1, step (1): a program counter outside memory raises BAD_ACCESS; so does the step after a RET
to an address outside memory, with `sp` already popped (decision D15, log entry 11; what RET pops is D12, log entry
10). -/
def Obligations.PcOutsideMemoryFaults : Prop :=
  (∀ s : State, s.run = .running → s.cfg.memSize ≤ s.pc → step s = .next (s.raise .badAccess)) ∧
  ∀ s : State, s.run = .running → s.sp + 4 ≤ s.cfg.memSize → s.cfg.memSize ≤ (s.mem.readWord s.sp).toNat →
    ∃ t, exec .ret s = .next t ∧ t.sp = s.sp + 4 ∧ t.pc = (s.mem.readWord s.sp).toNat ∧
      step t = .next (t.raise .badAccess)

/-- R79: an unassigned opcode raises BAD_INSTRUCTION before the span is looked at, in the last byte of memory too; an
assigned one whose span fits runs as its mnemonic. -/
def Obligations.UnassignedOpcodeFaults : Prop :=
  ∀ s : State, s.run = .running → s.pc < s.cfg.memSize →
    (s.cfg.opcodes.lookup (s.mem.read s.pc) = none → step s = .next (s.raise .badInstruction)) ∧
    (∀ k, s.cfg.opcodes.lookup (s.mem.read s.pc) = some k → s.pc + k.length ≤ s.cfg.memSize →
      ∃ i, i.mnemonic = k ∧ step s = exec i s)

/-- R80: an assigned opcode whose span does not fit raises BAD_ACCESS, with no register and no byte of memory changed. -/
def Obligations.SpanPastMemoryFaults : Prop :=
  ∀ (s : State) (k : Mnemonic), s.run = .running → s.pc < s.cfg.memSize →
    s.cfg.opcodes.lookup (s.mem.read s.pc) = some k → s.cfg.memSize < s.pc + k.length →
    ∃ t, step s = .next t ∧ t = s.raise .badAccess ∧ t.regs = s.regs ∧ t.mem = s.mem ∧ t.pc = s.pc

/-- R157: a step that raises, in the fetch, in validation or in the execute phase, records only its flag and stops the run;
everything else, `pc` included, is as before it. -/
def Obligations.RaisingStepWritesOnlyFaultsAndRun : Prop :=
  ∀ s t : State, step s = .next t → t.run = .stoppedFault →
    ∃ f, t = s.raise f ∧ t.cfg = s.cfg ∧ t.regs = s.regs ∧ t.pc = s.pc ∧ t.sp = s.sp ∧ t.cmp = s.cmp ∧
      t.mem = s.mem ∧ t.out = s.out ∧ t.faults = s.faults.set f

/-- 40_dispatch.md section 2: the order of the operand checks of every instruction: register fields, then the interrupt
number, then the address. The order within step (5) and the target check are decisions D14 and D16 (log entry 11). -/
def Obligations.OperandChecksInOrder : Prop :=
  ∀ (i : Instr) (s : State),
    (i.regsOk = false → exec i s = .next (s.raise .invalidRegisterIndex)) ∧
    (i.regsOk = true → i.intnoOk s.cfg.ints = false → exec i s = .next (s.raise .badInstruction)) ∧
    (i.regsOk = true → i.intnoOk s.cfg.ints = true → i.addrOk s.cfg.memSize = false →
      exec i s = .next (s.raise .badAccess))

/-- 40_dispatch.md section 1: every instruction, well formed or not, answers a next state in every state. -/
def Obligations.EveryInstructionAnswersNext : Prop :=
  ∀ (i : Instr) (s : State), ∃ t, exec i s = .next t

/-! ### Results: constants and arithmetic -/

/-- 41_arithmetic.md section 2 (CONST) and 45_stack.md section 4 (LSP). -/
def Obligations.ConstAndLspWriteTheirRegister : Prop :=
  ∀ (s : State) (r : Reg),
    (∀ imm, ∃ t, exec (.const r.byte imm) s = .next t ∧ t = { s with regs := t.regs, pc := s.pc + 6 } ∧
      t.reg r = imm ∧ ∀ q, q ≠ r → t.reg q = s.reg q) ∧
    ∃ t, exec (.lsp r.byte) s = .next t ∧ t = { s with regs := t.regs, pc := s.pc + 2 } ∧
      t.reg r = BitVec.ofNat 32 s.sp ∧ ∀ q, q ≠ r → t.reg q = s.reg q

/-- 41_arithmetic.md sections 1 and 2: ADD, NEG and MUL are the modular operations on 32-bit patterns, the same register
as source and destination included. Wrap-around is the spec's decision D8 (log entry 9). -/
def Obligations.AddNegMulWrap : Prop :=
  ∀ (s : State) (a d : Reg),
    (∃ t, exec (.add a.byte d.byte) s = .next t ∧ t = { s with regs := t.regs, pc := s.pc + 3 } ∧
      t.reg d = s.reg d + s.reg a ∧ ∀ q, q ≠ d → t.reg q = s.reg q) ∧
    (∃ t, exec (.neg d.byte) s = .next t ∧ t = { s with regs := t.regs, pc := s.pc + 2 } ∧
      t.reg d = - s.reg d ∧ ∀ q, q ≠ d → t.reg q = s.reg q) ∧
    ∃ t, exec (.mul a.byte d.byte) s = .next t ∧ t = { s with regs := t.regs, pc := s.pc + 3 } ∧
      t.reg d = s.reg d * s.reg a ∧ ∀ q, q ≠ d → t.reg q = s.reg q

/-- 41_arithmetic.md sections 1 and 2: DIV by a non-zero divisor leaves the quotient rounded toward zero; the one
overflowing case leaves INT_MIN (decision D9, log entry 9). -/
def Obligations.DivTruncatesTowardZero : Prop :=
  ∀ (s : State) (a d : Reg), s.reg a ≠ 0 →
    ∃ t, exec (.div a.byte d.byte) s = .next t ∧ t = { s with regs := t.regs, pc := s.pc + 3 } ∧
      (t.reg d).toInt = (if (s.reg d).toInt = -2 ^ 31 ∧ (s.reg a).toInt = -1 then -2 ^ 31
        else (s.reg d).toInt.tdiv (s.reg a).toInt) ∧
      ∀ q, q ≠ d → t.reg q = s.reg q

/-- 41_arithmetic.md sections 1 and 2: MOD by a non-zero divisor leaves the remainder of that quotient: smaller than the
divisor, and 0 or of the dividend's sign (decision D9, log entry 9). -/
def Obligations.ModLeavesTheRemainder : Prop :=
  ∀ (s : State) (a d : Reg), s.reg a ≠ 0 →
    ∃ t, exec (.mod a.byte d.byte) s = .next t ∧ t = { s with regs := t.regs, pc := s.pc + 3 } ∧
      (t.reg d).toInt = (s.reg d).toInt - (s.reg a).toInt * (s.reg d).toInt.tdiv (s.reg a).toInt ∧
      (t.reg d).toInt.natAbs < (s.reg a).toInt.natAbs ∧
      (0 < (t.reg d).toInt → 0 < (s.reg d).toInt) ∧ ((t.reg d).toInt < 0 → (s.reg d).toInt < 0) ∧
      ∀ q, q ≠ d → t.reg q = s.reg q

/-- 41_arithmetic.md section 2: DIV and MOD by zero raise BAD_ACCESS and write nothing else. -/
def Obligations.ZeroDivisorFaults : Prop :=
  ∀ (s : State) (a d : Reg), s.reg a = 0 →
    exec (.div a.byte d.byte) s = .next (s.raise .badAccess) ∧
    exec (.mod a.byte d.byte) s = .next (s.raise .badAccess)

/-- R99: CONST, ADD, NEG, MUL, DIV and MOD write only their destination register and `pc` where they do not raise, and
neither read nor write `cmp`, `sp`, memory or `out`: changing those four changes nothing else of the result. -/
def Obligations.ArithmeticTouchesOnlyRegistersAndPc : Prop :=
  ∀ (i : Instr) (s t : State), i.mnemonic ∈ [Mnemonic.const, .add, .neg, .mul, .div, .mod] → exec i s = .next t →
    (t.run ≠ .stoppedFault → t = { s with regs := t.regs, pc := t.pc } ∧
      ∀ r, i.writesReg r = false → t.reg r = s.reg r) ∧
    ∀ (c : CmpResult) (p : Nat) (m : Memory) (o : List Event),
      exec i { s with cmp := c, sp := p, mem := m, out := o } = .next { t with cmp := c, sp := p, mem := m, out := o }

/-! ### Results: compare and branch -/

/-- 42_compare_branch.md section 1: CMP sets exactly the signed order of its operands, whatever was there before, and
changes nothing else but `pc`. BELOW meaning the first is smaller is the spec's decision D10 (log entry 8). -/
def Obligations.CmpSetsTheSignedOrder : Prop :=
  ∀ (s : State) (a b : Reg),
    ∃ t, exec (.cmp a.byte b.byte) s = .next t ∧ t = { s with cmp := t.cmp, pc := s.pc + 3 } ∧
      (t.cmp = .below ↔ (s.reg a).toInt < (s.reg b).toInt) ∧
      (t.cmp = .equal ↔ (s.reg a).toInt = (s.reg b).toInt) ∧
      (t.cmp = .above ↔ (s.reg b).toInt < (s.reg a).toInt)

/-- 42_compare_branch.md section 2: with the target inside memory, JA, JE and JB jump exactly on their own comparison
result and fall through on every other, NONE included (decision D11, log entry 8); JMP always jumps. -/
def Obligations.BranchesFollowTheComparison : Prop :=
  ∀ (s : State) (a : Word), a.toNat < s.cfg.memSize →
    exec (.ja a) s = .next { s with pc := if s.cmp = .above then a.toNat else s.pc + 5 } ∧
    exec (.je a) s = .next { s with pc := if s.cmp = .equal then a.toNat else s.pc + 5 } ∧
    exec (.jb a) s = .next { s with pc := if s.cmp = .below then a.toNat else s.pc + 5 } ∧
    exec (.jmp a) s = .next { s with pc := a.toNat }

/-! ### Results: subroutines -/

/-- 43_subroutine.md (CALL): with the target inside memory and 4 free stack bytes, CALL pushes the address after itself
and jumps. Free bytes counted from STACK_LIMIT is the spec's decision D12 (log entry 10). -/
def Obligations.CallPushesTheReturnAddress : Prop :=
  ∀ (s : State) (a : Word), a.toNat < s.cfg.memSize → s.cfg.stackLimit + 4 ≤ s.sp → s.sp ≤ s.cfg.memSize →
    ∃ t, exec (.call a) s = .next t ∧ t = { s with mem := t.mem, sp := s.sp - 4, pc := a.toNat } ∧
      t.mem.readWord (s.sp - 4) = BitVec.ofNat 32 (s.pc + 5) ∧
      ∀ b, b < s.sp - 4 ∨ s.sp ≤ b → t.mem.read b = s.mem.read b

/-- 43_subroutine.md (RET): with a word on the stack, RET moves it to `pc`, unsigned and unchecked (decisions D12, D15;
log entries 10, 11). -/
def Obligations.RetPopsTheProgramCounter : Prop :=
  ∀ s : State, s.sp + 4 ≤ s.cfg.memSize →
    exec .ret s = .next { s with sp := s.sp + 4, pc := (s.mem.readWord s.sp).toNat }

/-- 43_subroutine.md (the round trip): after a completed CALL, a RET that finds `sp` and the word there as the CALL left
them returns to the address after the CALL with `sp` as before it. -/
def Obligations.CallThenRetReturns : Prop :=
  ∀ (s t u : State) (a : Word), exec (.call a) s = .next t → t.run ≠ .stoppedFault → s.pc + 5 < 2 ^ 32 →
    u.cfg = t.cfg → u.sp = t.sp → u.mem.readWord u.sp = t.mem.readWord t.sp →
    exec .ret u = .next { u with pc := s.pc + 5, sp := s.sp }

/-! ### Results: load and store -/

/-- 20_memory.md section 2: a word read is the little-endian sum of its four bytes; a word write sets its four bytes,
lowest first, and no other. -/
def Obligations.WordsAreLittleEndian : Prop :=
  ∀ (m : Memory) (a : Nat),
    (m.readWord a).toNat = (m.read a).toNat + 2 ^ 8 * (m.read (a + 1)).toNat + 2 ^ 16 * (m.read (a + 2)).toNat
      + 2 ^ 24 * (m.read (a + 3)).toNat ∧
    ∀ (v : Word), (∀ k < 4, (m.writeWord a v).read (a + k) = v.extractLsb' (8 * k) 8) ∧
      ∀ b, b < a ∨ a + 4 ≤ b → (m.writeWord a v).read b = m.read b

/-- 44_load_store.md (LOAD): with the word inside memory, at any alignment (decision D21, log entry 14). -/
def Obligations.LoadReadsTheWord : Prop :=
  ∀ (s : State) (r : Reg) (a : Word), a.toNat + 4 ≤ s.cfg.memSize →
    ∃ t, exec (.load r.byte a) s = .next t ∧ t = { s with regs := t.regs, pc := s.pc + 6 } ∧
      t.reg r = s.mem.readWord a.toNat ∧ ∀ q, q ≠ r → t.reg q = s.reg q

/-- 44_load_store.md (STORE): with the word inside memory, the word there is the register's, every other byte of memory
and everything but `pc` unchanged; a LOAD of that address then gives the register's value back. That both complete at any
alignment is the spec's decision D21 (log entry 14). -/
def Obligations.StoreWritesTheWord : Prop :=
  ∀ (s : State) (r : Reg) (a : Word), a.toNat + 4 ≤ s.cfg.memSize →
    ∃ t, exec (.store r.byte a) s = .next t ∧ t = { s with mem := t.mem, pc := s.pc + 6 } ∧
      t.mem.readWord a.toNat = s.reg r ∧ (∀ b, b < a.toNat ∨ a.toNat + 4 ≤ b → t.mem.read b = s.mem.read b) ∧
      ∀ q : Reg, ∃ u, exec (.load q.byte a) t = .next u ∧ u.reg q = s.reg r

/-- 20_memory.md section 4: a STORE over the next instruction's bytes is seen by the next fetch: the next step runs the
instruction whose encoding the stored word begins with. That the STORE completes at any alignment is the spec's
decision D21 (log entry 14). -/
def Obligations.StoreToCodeIsFetched : Prop :=
  ∀ (s : State) (r : Reg) (a : Word) (i : Instr) (tail : List Byte), s.run = .running → s.cfg.opcodes.wf →
    a.toNat = s.pc + 6 → a.toNat + 4 ≤ s.cfg.memSize → wordBytes (s.reg r) = encode s.cfg.opcodes i ++ tail →
    ∃ t, exec (.store r.byte a) s = .next t ∧ t.pc = a.toNat ∧ step t = exec i t

/-! ### Results: the stack -/

/-- 45_stack.md section 2 (PUSH): with headroom the register's word is written just below the old `sp`. That a
push decrements and then writes is the spec's decision D12 (log entry 10). -/
def Obligations.PushWritesBelowSp : Prop :=
  ∀ (s : State) (r : Reg), s.cfg.stackLimit + 4 < s.sp → s.sp ≤ s.cfg.memSize →
    ∃ t, exec (.push r.byte) s = .next t ∧ t = { s with mem := t.mem, sp := s.sp - 4, pc := s.pc + 2 } ∧
      t.mem.readWord (s.sp - 4) = s.reg r ∧ ∀ b, b < s.sp - 4 ∨ s.sp ≤ b → t.mem.read b = s.mem.read b

/-- 45_stack.md section 2 (POP): with a word on the stack it is moved to the register; memory keeps it. That a
pop reads at `sp` and then increments, and the non-empty test, are the spec's decision D12 (log entry 10). -/
def Obligations.PopReadsAtSp : Prop :=
  ∀ (s : State) (r : Reg), s.sp + 4 ≤ s.cfg.memSize →
    ∃ t, exec (.pop r.byte) s = .next t ∧ t = { s with regs := t.regs, sp := s.sp + 4, pc := s.pc + 2 } ∧
      t.reg r = s.mem.readWord s.sp ∧ ∀ q, q ≠ r → t.reg q = s.reg q

/-- 45_stack.md section 2: PUSH of one register then POP into another copies the value and leaves `sp` as it was. -/
def Obligations.PushThenPopCopies : Prop :=
  ∀ (s t : State) (r q : Reg), exec (.push r.byte) s = .next t → t.run ≠ .stoppedFault →
    ∃ u, exec (.pop q.byte) t = .next u ∧ u.reg q = s.reg r ∧ u.sp = s.sp ∧ ∀ p, p ≠ q → u.reg p = s.reg p

/-- 45_stack.md section 2: in a state that meets the invariant, PUSH completes exactly with 8 free stack bytes. Free
bytes counted from STACK_LIMIT is the spec's decision D12 (log entry 10). -/
def Obligations.PushNeedsEightFreeBytes : Prop :=
  ∀ (s t : State) (r : Reg), s.Inv → s.run = .running → exec (.push r.byte) s = .next t →
    (t.run = .running ↔ s.cfg.stackLimit + 8 ≤ s.sp)

/-- 45_stack.md section 3 (PUSH_ALL): with headroom the four registers stand at `sp - 4` down to `sp - 16`. The
order of a push is the spec's decision D12, the threshold D13 (log entry 10). -/
def Obligations.PushAllWritesTheFrame : Prop :=
  ∀ s : State, s.cfg.stackLimit + 16 < s.sp → s.sp ≤ s.cfg.memSize →
    ∃ t, exec .pushAll s = .next t ∧ t = { s with mem := t.mem, sp := s.sp - 16, pc := s.pc + 1 } ∧
      t.mem.readWord (s.sp - 4) = s.reg .r1 ∧ t.mem.readWord (s.sp - 8) = s.reg .r2 ∧
      t.mem.readWord (s.sp - 12) = s.reg .r3 ∧ t.mem.readWord (s.sp - 16) = s.reg .r4 ∧
      ∀ b, b < s.sp - 16 ∨ s.sp ≤ b → t.mem.read b = s.mem.read b

/-- 45_stack.md section 3 (POP_ALL): with 16 bytes on the stack, R4 from `sp` up to R1 from `sp + 12` (decisions D12 and
D13, log entry 10). -/
def Obligations.PopAllReadsTheFrame : Prop :=
  ∀ s : State, s.sp + 16 ≤ s.cfg.memSize →
    ∃ t, exec .popAll s = .next t ∧ t = { s with regs := t.regs, sp := s.sp + 16, pc := s.pc + 1 } ∧
      t.reg .r4 = s.mem.readWord s.sp ∧ t.reg .r3 = s.mem.readWord (s.sp + 4) ∧
      t.reg .r2 = s.mem.readWord (s.sp + 8) ∧ t.reg .r1 = s.mem.readWord (s.sp + 12)

/-- 45_stack.md section 3 (the round trip): after a completed PUSH_ALL, a POP_ALL that finds `sp` and the 16 bytes there
as it left them restores all four registers and `sp`. -/
def Obligations.PushAllThenPopAllRestores : Prop :=
  ∀ s t u : State, exec .pushAll s = .next t → t.run ≠ .stoppedFault → u.cfg = t.cfg → u.sp = t.sp →
    (∀ k < 16, u.mem.read (u.sp + k) = t.mem.read (t.sp + k)) →
    exec .popAll u = .next { u with regs := s.regs, sp := s.sp, pc := u.pc + 1 }

/-- 45_stack.md section 3: PUSH_ALL completes exactly where PUSH R1, R2, R3, R4 in turn all complete, and then leaves
the same state but for `pc`; where one of them would fail, PUSH_ALL raises and writes nothing else (decision D13,
log entry 10). -/
def Obligations.PushAllIsFourPushes : Prop :=
  ∀ s : State, s.run = .running →
    (∀ u, State.execAll [.push Reg.r1.byte, .push Reg.r2.byte, .push Reg.r3.byte, .push Reg.r4.byte] s = some u →
      u.pc = s.pc + 8 ∧ exec .pushAll s = .next { u with pc := s.pc + 1 }) ∧
    (State.execAll [.push Reg.r1.byte, .push Reg.r2.byte, .push Reg.r3.byte, .push Reg.r4.byte] s = none →
      ∃ f, exec .pushAll s = .next (s.raise f))

/-- 43_subroutine.md, 45_stack.md, 46_interrupt_service.md: where each stack instruction raises STACK_OVERFLOW or
STACK_UNDERFLOW and writes nothing else. The reading of free bytes is the spec's decision D12, the thresholds of PUSH_ALL
and POP_ALL are D13 (log entry 10). -/
def Obligations.StackBoundsTrap : Prop :=
  ∀ (s : State) (r : Reg),
    (s.sp ≤ s.cfg.stackLimit + 4 → exec (.push r.byte) s = .next (s.raise .stackOverflow)) ∧
    (s.sp ≤ s.cfg.stackLimit + 16 → exec .pushAll s = .next (s.raise .stackOverflow)) ∧
    (∀ a : Word, a.toNat < s.cfg.memSize → s.sp < s.cfg.stackLimit + 4 →
      exec (.call a) s = .next (s.raise .stackOverflow)) ∧
    (s.cfg.memSize < s.sp + 4 → exec (.pop r.byte) s = .next (s.raise .stackUnderflow) ∧
      exec .ret s = .next (s.raise .stackUnderflow) ∧
      exec (.int s.cfg.ints.printInteger) s = .next (s.raise .stackUnderflow) ∧
      exec (.int s.cfg.ints.printString) s = .next (s.raise .stackUnderflow)) ∧
    (s.cfg.memSize < s.sp + 16 → exec .popAll s = .next (s.raise .stackUnderflow))

/-! ### Results: the console service, HALT and NOP -/

/-- 46_interrupt_service.md section 2 (PRINT_INTEGER). The popped word and the non-empty test are the spec's
decision D12 (log entry 10), the form of the event is D20 (log entry 13). -/
def Obligations.PrintIntegerSendsTheTopWord : Prop :=
  ∀ s : State, s.sp + 4 ≤ s.cfg.memSize →
    exec (.int s.cfg.ints.printInteger) s =
      .next { s with sp := s.sp + 4, pc := s.pc + 2, out := s.out ++ [.int (s.mem.readWord s.sp)] }

/-- 46_interrupt_service.md section 2 (PRINT_STRING): where the popped address begins a run of non-zero bytes with a zero
byte after it inside memory, exactly that run is sent (decision D20, log entry 13). The popped address and the non-empty
test are decision D12 (log entry 10). -/
def Obligations.PrintStringSendsTheString : Prop :=
  ∀ (s : State) (bs : List Byte), s.cfg.ints.wf → s.sp + 4 ≤ s.cfg.memSize →
    (s.mem.readWord s.sp).toNat + bs.length < s.cfg.memSize →
    (∀ (k : Nat) (h : k < bs.length), s.mem.read ((s.mem.readWord s.sp).toNat + k) = bs[k] ∧ bs[k] ≠ 0) →
    s.mem.read ((s.mem.readWord s.sp).toNat + bs.length) = 0 →
    exec (.int s.cfg.ints.printString) s =
      .next { s with sp := s.sp + 4, pc := s.pc + 2, out := s.out ++ [.bytes bs] }

/-- 46_interrupt_service.md section 2: where no zero byte lies between the popped address and the end of memory, an
address outside memory included, nothing is popped or sent and BAD_ACCESS is raised (decision D19, log entry 13). The
popped address and the non-empty test are decision D12 (log entry 10). -/
def Obligations.UnterminatedStringFaults : Prop :=
  ∀ s : State, s.cfg.ints.wf → s.sp + 4 ≤ s.cfg.memSize →
    (∀ k, (s.mem.readWord s.sp).toNat ≤ k → k < s.cfg.memSize → s.mem.read k ≠ 0) →
    exec (.int s.cfg.ints.printString) s = .next (s.raise .badAccess)

/-- R145 and R148: INT changes no register, not `cmp` and no byte of memory; where it completes, execution continues at
`pc + 2` and only `sp`, `pc` and `out` change; and no other instruction writes `out`. -/
def Obligations.IntTouchesOnlySpPcAndOut : Prop :=
  (∀ (n : Byte) (s t : State), exec (.int n) s = .next t → t.regs = s.regs ∧ t.cmp = s.cmp ∧ t.mem = s.mem ∧
    (t.run ≠ .stoppedFault → t = { s with sp := t.sp, pc := s.pc + 2, out := t.out })) ∧
  ∀ (i : Instr) (s t : State), exec i s = .next t → i.mnemonic ≠ .int → t.out = s.out

/-- 47_control.md: HALT stops the run cleanly, NOP only moves `pc`. HALT's `pc + 1` is the spec's decision D17 (log
entry 12). -/
def Obligations.HaltStopsAndNopAdvances : Prop :=
  ∀ s : State, exec .halt s = .next { s with pc := s.pc + 1, run := .stoppedOk } ∧
    exec .nop s = .next { s with pc := s.pc + 1 }

/-! ### Whole-machine rules -/

/-- 10_state.md section 1: no instruction writes a register but its destination, POP_ALL all four. -/
def Obligations.RegistersWrittenOnlyByTheirWriters : Prop :=
  ∀ (i : Instr) (s t : State) (r : Reg), exec i s = .next t → i.writesReg r = false → t.reg r = s.reg r

/-- 20_memory.md section 1: STORE, CALL, PUSH and PUSH_ALL change only the bytes they store to, and no other instruction
changes a byte of memory. The spans below `sp` are the spec's decision D12 (log entry 10). -/
def Obligations.MemoryWrittenOnlyInTheStoredSpan : Prop :=
  ∀ (i : Instr) (s t : State) (a : Nat), exec i s = .next t →
    a < (i.storeSpan s).1 ∨ (i.storeSpan s).1 + (i.storeSpan s).2 ≤ a → t.mem.read a = s.mem.read a

/-- 45_stack.md section 4: a completed PUSH or CALL moves `sp` by -4, PUSH_ALL by -16, POP, RET and INT by 4, POP_ALL by
16, and no other instruction moves it. -/
def Obligations.SpMovesOnlyByStackInstructions : Prop :=
  ∀ (i : Instr) (s t : State), exec i s = .next t → t.run ≠ .stoppedFault → (t.sp : Int) = s.sp + i.spShift

/-- 10_state.md section 2: every completed instruction but a control transfer leaves `pc` at the address after it. For
HALT that is the spec's decision D17 (log entry 12). -/
def Obligations.PcFallsThroughByTheLength : Prop :=
  ∀ (i : Instr) (s t : State), exec i s = .next t → t.run ≠ .stoppedFault → i.fallsThrough = true →
    t.pc = s.pc + i.mnemonic.length

/-- 10_state.md section 4: only CMP writes the comparison result, and it never leaves NONE there. -/
def Obligations.CmpWrittenOnlyByCmp : Prop :=
  ∀ (i : Instr) (s t : State), exec i s = .next t →
    (i.mnemonic ≠ .cmp → t.cmp = s.cmp) ∧ (i.mnemonic = .cmp → t.run ≠ .stoppedFault → t.cmp ≠ .none)

/-- 10_state.md section 4: no step clears a fault flag, and one that sets a flag is exactly the raise of that fault. -/
def Obligations.FaultFlagsAreSticky : Prop :=
  ∀ (s t : State) (f : FaultKind), step s = .next t →
    (s.faults.has f = true → t.faults.has f = true) ∧
    (s.faults.has f = false → t.faults.has f = true → t = s.raise f)

/-- R32: the configuration, and with it the dispatch table, is fixed: no instruction, no step, no run and no host action
changes it. -/
def Obligations.ConfigurationNeverChanges : Prop :=
  ∀ s : State, (∀ i t, exec i s = .next t → t.cfg = s.cfg) ∧ (∀ t, step s = .next t → t.cfg = s.cfg) ∧
    (∀ n, (State.runFor n s).cfg = s.cfg) ∧ (∀ image t, s.loadImage image = some t → t.cfg = s.cfg) ∧
    (∀ a b t, s.hostWriteByte a b = some t → t.cfg = s.cfg) ∧ (∀ a v t, s.hostWriteWord a v = some t → t.cfg = s.cfg)

/-- 10_state.md section 4: the host's status word. Its layout is the spec's decision D25 (log entry 17). -/
def Obligations.StatusWordLayout : Prop :=
  ∀ s : State, (∀ f : FaultKind, s.statusWord.getLsbD f.code = s.faults.has f) ∧
    (s.statusWord.extractLsb' 5 2).toNat = s.cmp.code ∧ ∀ k, 7 ≤ k → s.statusWord.getLsbD k = false
end

