-- ==== Sys2Proof/Laws/Words.lean ====
section
/-! SUPPORT. Byte order and the 32-bit readings: a word is its four bytes, and exact integer arithmetic narrowed
to 32 bits is the arithmetic of the pattern. -/

namespace Sys2Proof

theorem getLsbD_wordByte (w : Word) (k i : Nat) :
    (wordByte w k).getLsbD i = (decide (i < 8) && w.getLsbD (8 * k + i)) := by
  simp [wordByte, BitVec.getLsbD_extractLsb']

theorem le32_wordByte (w : Word) :
    le32 (wordByte w 0) (wordByte w 1) (wordByte w 2) (wordByte w 3) = w := by
  apply BitVec.eq_of_getLsbD_eq
  intro i hi
  simp only [le32, BitVec.getLsbD_append, getLsbD_wordByte]
  by_cases h0 : i < 8
  · simp [h0]
  · by_cases h1 : i - 8 < 8
    · simp [h0, h1, show 8 + (i - 8) = i by omega]
    · by_cases h2 : i - 8 - 8 < 8
      · simp [h0, h1, h2, show 16 + (i - 8 - 8) = i by omega]
      · simp [h0, h1, h2, show 24 + (i - 8 - 8 - 8) = i by omega, show i - 8 - 8 - 8 < 8 by omega]

/-- The bytes a word made of four bytes has are those four. -/
theorem wordByte_le32 (b0 b1 b2 b3 : Byte) :
    wordByte (le32 b0 b1 b2 b3) 0 = b0 ∧ wordByte (le32 b0 b1 b2 b3) 1 = b1 ∧
      wordByte (le32 b0 b1 b2 b3) 2 = b2 ∧ wordByte (le32 b0 b1 b2 b3) 3 = b3 := by
  refine ⟨?_, ?_, ?_, ?_⟩ <;>
  · apply BitVec.eq_of_getLsbD_eq
    intro i hi
    simp only [getLsbD_wordByte, le32, BitVec.getLsbD_append, hi, decide_true, Bool.true_and,
      Nat.mul_zero, Nat.zero_add, Nat.mul_one, Nat.reduceMul, if_true,
      show ¬ 8 + i < 8 by omega, show 8 + i - 8 = i by omega,
      show ¬ 16 + i < 8 by omega, show 16 + i - 8 = 8 + i by omega,
      show ¬ 24 + i < 8 by omega, show 24 + i - 8 = 16 + i by omega, if_false]

end Sys2Proof

namespace Sys2Proof.Machine

theorem w32_s32 (v : Word) : w32 (s32 v) = v := BitVec.ofInt_toInt

theorem w32_natCast (n : Nat) : w32 (n : Int) = BitVec.ofNat 32 n := by
  simp [w32]

theorem u32_w32_natCast {n : Nat} (h : n < 2 ^ 32) : u32 (w32 (n : Int)) = n := by
  rw [w32_natCast, u32, BitVec.toNat_ofNat, Nat.mod_eq_of_lt h]

theorem w32_add (a b : Word) : w32 (s32 a + s32 b) = a + b := by
  simp [w32, s32, BitVec.ofInt_add]

theorem w32_mul (a b : Word) : w32 (s32 a * s32 b) = a * b := by
  simp [w32, s32, BitVec.ofInt_mul]

theorem w32_neg (a : Word) : w32 (0 - s32 a) = -a := by
  simp [w32, s32, BitVec.ofInt_neg]

theorem s32_bounds (a : Word) : -2 ^ 31 ≤ s32 a ∧ s32 a < 2 ^ 31 := by
  have h1 := BitVec.le_toInt a
  have h2 := BitVec.toInt_lt (x := a)
  exact ⟨by simpa [s32] using h1, by simpa [s32] using h2⟩

/-- An exact result that fits 32 signed bits is kept by narrowing. -/
theorem s32_w32 {n : Int} (h1 : -2 ^ 31 ≤ n) (h2 : n < 2 ^ 31) : s32 (w32 n) = n := by
  simp only [s32, w32, BitVec.toInt_ofInt]
  exact Int.bmod_eq_of_le (by omega) (by omega)

end Sys2Proof.Machine
end

