-- ==== Sys2Proof/Laws/Decode.lean ====
section
/-! SUPPORT. The dispatch table and the operand parsers, one specification lemma each. -/

namespace Sys2Proof

theorem Mnemonic.mem_all (k : Mnemonic) : k ∈ Mnemonic.all := by cases k <;> decide

theorem find_eq_of_nodup_map {α β : Type} [DecidableEq β] (f : α → β) (l : List α) (h : (l.map f).Nodup) {a : α}
    (ha : a ∈ l) : l.find? (fun k => f k == f a) = some a := by
  induction l with
  | nil => simp at ha
  | cons x rest ih =>
    rw [List.map_cons, List.nodup_cons] at h
    rcases List.mem_cons.mp ha with rfl | hr
    · simp
    · have hne : f x ≠ f a := fun e => h.1 (e ▸ List.mem_map_of_mem hr)
      simp [hne, ih h.2 hr]

/-- Under an admissible map the table finds every mnemonic at its own byte. -/
theorem OpcodeMap.lookup_byte {m : OpcodeMap} (h : m.wf) (k : Mnemonic) : m.lookup (m.byte k) = some k :=
  find_eq_of_nodup_map m.byte Mnemonic.all h.1 k.mem_all

/-- Under any map the table answers only a mnemonic whose byte was asked for. -/
theorem OpcodeMap.byte_of_lookup {m : OpcodeMap} {op : Byte} {k : Mnemonic} (h : m.lookup op = some k) :
    m.byte k = op := by
  simpa using List.find?_some h

theorem OpcodeMap.lookup_eq_none {m : OpcodeMap} {op : Byte} : m.lookup op = none ↔ ∀ k, m.byte k ≠ op := by
  simp only [OpcodeMap.lookup, List.find?_eq_none, beq_iff_eq]
  exact ⟨fun h k => h k k.mem_all, fun h k _ => h k⟩

theorem parseR_eq_some {mk : Byte → Instr} {bs rest : List Byte} {i : Instr} :
    parseR mk bs = some (i, rest) ↔ ∃ a, bs = a :: rest ∧ i = mk a := by
  unfold parseR
  split
  · simp only [Option.some.injEq, Prod.mk.injEq, List.cons.injEq]
    constructor
    · rintro ⟨rfl, rfl⟩; exact ⟨_, ⟨rfl, rfl⟩, rfl⟩
    · rintro ⟨a, ⟨rfl, rfl⟩, rfl⟩; exact ⟨rfl, rfl⟩
  · simp

theorem parseRR_eq_some {mk : Byte → Byte → Instr} {bs rest : List Byte} {i : Instr} :
    parseRR mk bs = some (i, rest) ↔ ∃ a b, bs = a :: b :: rest ∧ i = mk a b := by
  unfold parseRR
  split
  · simp only [Option.some.injEq, Prod.mk.injEq, List.cons.injEq]
    constructor
    · rintro ⟨rfl, rfl⟩; exact ⟨_, _, ⟨rfl, rfl, rfl⟩, rfl⟩
    · rintro ⟨a, b, ⟨rfl, rfl, rfl⟩, rfl⟩; exact ⟨rfl, rfl⟩
  · rename_i h
    simp only [reduceCtorEq, false_iff, not_exists, not_and]
    intro a b hb; exact absurd hb (h a b rest)

theorem le32_wordBytes_append (w : Word) (rest : List Byte) :
    wordBytes w ++ rest = wordByte w 0 :: wordByte w 1 :: wordByte w 2 :: wordByte w 3 :: rest := rfl

theorem wordBytes_le32 (b0 b1 b2 b3 : Byte) : wordBytes (le32 b0 b1 b2 b3) = [b0, b1, b2, b3] := by
  obtain ⟨h0, h1, h2, h3⟩ := wordByte_le32 b0 b1 b2 b3
  simp [wordBytes, h0, h1, h2, h3]

theorem parseA_eq_some {mk : Word → Instr} {bs rest : List Byte} {i : Instr} :
    parseA mk bs = some (i, rest) ↔ ∃ w, bs = wordBytes w ++ rest ∧ i = mk w := by
  unfold parseA
  split
  · rename_i a0 a1 a2 a3 r
    simp only [Option.some.injEq, Prod.mk.injEq]
    constructor
    · rintro ⟨rfl, rfl⟩; exact ⟨_, by rw [wordBytes_le32]; rfl, rfl⟩
    · rintro ⟨w, hw, rfl⟩
      rw [le32_wordBytes_append] at hw
      simp only [List.cons.injEq] at hw
      obtain ⟨rfl, rfl, rfl, rfl, rfl⟩ := hw
      exact ⟨by rw [le32_wordByte], rfl⟩
  · rename_i h
    simp only [reduceCtorEq, false_iff, not_exists, not_and]
    intro w hw; exact absurd hw (h _ _ _ _ _)

theorem parseRI_eq_some {mk : Byte → Word → Instr} {bs rest : List Byte} {i : Instr} :
    parseRI mk bs = some (i, rest) ↔ ∃ r w, bs = r :: (wordBytes w ++ rest) ∧ i = mk r w := by
  unfold parseRI
  split
  · rename_i r a0 a1 a2 a3 tail
    simp only [Option.some.injEq, Prod.mk.injEq, List.cons.injEq]
    constructor
    · rintro ⟨rfl, rfl⟩; exact ⟨_, _, ⟨rfl, by rw [wordBytes_le32]; rfl⟩, rfl⟩
    · rintro ⟨r', w, ⟨rfl, hw⟩, rfl⟩
      rw [le32_wordBytes_append] at hw
      simp only [List.cons.injEq] at hw
      obtain ⟨rfl, rfl, rfl, rfl, rfl⟩ := hw
      exact ⟨by rw [le32_wordByte], rfl⟩
  · rename_i h
    simp only [reduceCtorEq, false_iff, not_exists, not_and]
    intro r w hw; exact absurd hw (h _ _ _ _ _ _)

/-- The parser of a mnemonic answers exactly the instructions of that mnemonic, from their operand bytes. -/
theorem Mnemonic.parse_eq_some {k : Mnemonic} {bs rest : List Byte} {i : Instr} :
    k.parse bs = some (i, rest) ↔ i.mnemonic = k ∧ bs = i.operandBytes ++ rest := by
  cases k <;>
    simp only [Mnemonic.parse, parseR_eq_some, parseRR_eq_some, parseA_eq_some, parseRI_eq_some, parseN,
      Option.some.injEq, Prod.mk.injEq] <;>
    cases i <;> simp [Instr.mnemonic, Instr.operandBytes]

theorem Mnemonic.length_le (k : Mnemonic) : k.length ≤ maxInstrLength := by cases k <;> decide

theorem Mnemonic.length_pos (k : Mnemonic) : 1 ≤ k.length := by cases k <;> decide

theorem Instr.length_operandBytes (i : Instr) : i.operandBytes.length + 1 = i.mnemonic.length := by
  cases i <;> rfl

end Sys2Proof
end

