-- ==== Sys2Proof/Laws/Memory.lean ====
section
/-! SUPPORT. Memory as a list: a read after a write, at the same address and at every other, for ANY list; and
every memory operation keeps the canonical form and the bound of its addresses. -/

namespace Sys2Proof.Machine

/-! ### Reads after the two list operations -/

theorem Memory.read_erase (m : Memory) (a c : Nat) :
    Memory.read (Memory.erase m a) c = if c = a then 0 else Memory.read m c := by
  induction m with
  | nil => simp [Memory.erase, Memory.read]
  | cons cell rest ih =>
    obtain ⟨k, v⟩ := cell
    by_cases hk : k = a
    · subst hk
      rw [Memory.erase, if_pos rfl, ih]
      by_cases hc : c = k
      · simp [hc]
      · simp [Memory.read, hc, Ne.symm hc]
    · by_cases hkc : k = c
      · subst hkc; simp [Memory.erase, Memory.read, hk]
      · simp [Memory.erase, Memory.read, hk, hkc, ih]

theorem Memory.read_insert_self (m : Memory) (a : Nat) (b : Byte) (h : ∀ c ∈ m, c.1 ≠ a) :
    Memory.read (Memory.insert m a b) a = b := by
  induction m with
  | nil => simp [Memory.insert, Memory.read]
  | cons cell rest ih =>
    obtain ⟨k, v⟩ := cell
    have hk : k ≠ a := h (k, v) (by simp)
    by_cases hak : a < k
    · simp [Memory.insert, hak, Memory.read]
    · simp [Memory.insert, hak, Memory.read, hk, ih (fun c hc => h c (by simp [hc]))]

theorem Memory.read_insert_of_ne (m : Memory) {a c : Nat} (b : Byte) (h : c ≠ a) :
    Memory.read (Memory.insert m a b) c = Memory.read m c := by
  induction m with
  | nil => simp [Memory.insert, Memory.read, Ne.symm h]
  | cons cell rest ih =>
    obtain ⟨k, v⟩ := cell
    by_cases hak : a < k
    · simp [Memory.insert, hak, Memory.read, Ne.symm h]
    · simp [Memory.insert, hak, Memory.read, ih]

theorem Memory.mem_erase {m : Memory} {a : Nat} {c : Host.Cell} :
    c ∈ Memory.erase m a ↔ c ∈ m ∧ c.1 ≠ a := by
  induction m with
  | nil => simp [Memory.erase]
  | cons cell rest ih =>
    obtain ⟨k, v⟩ := cell
    by_cases hk : k = a
    · subst hk
      simp only [Memory.erase, if_true, ih, List.mem_cons]
      constructor
      · exact fun ⟨h1, h2⟩ => ⟨.inr h1, h2⟩
      · rintro ⟨rfl | h1, h2⟩
        · exact absurd rfl h2
        · exact ⟨h1, h2⟩
    · simp only [Memory.erase, hk, if_false, List.mem_cons, ih]
      constructor
      · rintro (rfl | ⟨h1, h2⟩)
        · exact ⟨.inl rfl, hk⟩
        · exact ⟨.inr h1, h2⟩
      · rintro ⟨rfl | h1, h2⟩
        · exact .inl rfl
        · exact .inr ⟨h1, h2⟩

theorem Memory.mem_insert {m : Memory} {a : Nat} {b : Byte} {c : Host.Cell} :
    c ∈ Memory.insert m a b ↔ c = (a, b) ∨ c ∈ m := by
  induction m with
  | nil => simp [Memory.insert]
  | cons cell rest ih =>
    obtain ⟨k, v⟩ := cell
    by_cases hak : a < k
    · simp [Memory.insert, hak]
    · simp only [Memory.insert, hak, if_false, List.mem_cons, ih]; tauto

/-! ### One byte -/

/-- What a byte write does to every byte read. -/
theorem Memory.read_write (m : Memory) (a c : Nat) (b : Byte) :
    (Memory.write m a b).read c = if c = a then b else Memory.read m c := by
  unfold Memory.write
  by_cases hb : b = 0
  · simp [hb, Memory.read_erase]
  · by_cases hc : c = a
    · subst hc
      simp only [hb, if_false, if_true]
      exact Memory.read_insert_self _ _ _ (fun d hd => (Memory.mem_erase.mp hd).2)
    · simp only [hb, if_false, hc]
      rw [Memory.read_insert_of_ne _ _ hc, Memory.read_erase, if_neg hc]

@[simp] theorem Memory.read_write_self (m : Memory) (a : Nat) (b : Byte) : (Memory.write m a b).read a = b := by
  simp [Memory.read_write]

theorem Memory.read_write_of_ne (m : Memory) {a c : Nat} (b : Byte) (h : c ≠ a) :
    (Memory.write m a b).read c = Memory.read m c := by
  simp [Memory.read_write, h]

theorem Memory.wf_erase {m : Memory} (a : Nat) (h : Memory.wf m) : Memory.wf (Memory.erase m a) := by
  obtain ⟨hp, hn⟩ := h
  refine ⟨?_, fun c hc => hn c (Memory.mem_erase.mp hc).1⟩
  clear hn
  induction m with
  | nil => simp [Memory.erase]
  | cons cell rest ih =>
    obtain ⟨k, v⟩ := cell
    rw [List.pairwise_cons] at hp
    by_cases hk : k = a
    · simpa [Memory.erase, hk] using ih hp.2
    · simp only [Memory.erase, hk, if_false, List.pairwise_cons]
      exact ⟨fun c hc => hp.1 c (Memory.mem_erase.mp hc).1, ih hp.2⟩

theorem Memory.wf_insert {m : Memory} {a : Nat} {b : Byte} (h : Memory.wf m) (hb : b ≠ 0)
    (ha : ∀ c ∈ m, c.1 ≠ a) : Memory.wf (Memory.insert m a b) := by
  obtain ⟨hp, hn⟩ := h
  refine ⟨?_, fun c hc => ?_⟩
  · clear hn
    induction m with
    | nil => simp [Memory.insert]
    | cons cell rest ih =>
      obtain ⟨k, v⟩ := cell
      have hka : k ≠ a := ha (k, v) (by simp)
      have hp' := List.pairwise_cons.mp hp
      by_cases hak : a < k
      · simp only [Memory.insert, hak, if_true]
        refine List.pairwise_cons.mpr ⟨fun c hc => ?_, hp⟩
        rcases List.mem_cons.mp hc with rfl | hc
        · exact hak
        · exact lt_trans hak (hp'.1 c hc)
      · simp only [Memory.insert, hak, if_false]
        refine List.pairwise_cons.mpr ⟨fun c hc => ?_, ih (fun c hc => ha c (by simp [hc])) hp'.2⟩
        rcases Memory.mem_insert.mp hc with rfl | hc
        · exact show k < a by omega
        · exact hp'.1 c hc
  · rcases Memory.mem_insert.mp hc with rfl | hc
    · exact hb
    · exact hn c hc

/-- A byte write keeps the canonical form. -/
theorem Memory.wf_write {m : Memory} (a : Nat) (b : Byte) (h : Memory.wf m) : Memory.wf (Memory.write m a b) := by
  unfold Memory.write
  split
  · exact Memory.wf_erase a h
  · exact Memory.wf_insert (Memory.wf_erase a h) ‹_› (fun c hc => (Memory.mem_erase.mp hc).2)

/-- A byte write below a size keeps every listed address below it. -/
theorem Memory.within_write {m : Memory} {size a : Nat} (b : Byte) (h : Memory.within m size) (ha : a < size) :
    Memory.within (Memory.write m a b) size := by
  intro c hc
  unfold Memory.write at hc
  split at hc
  · exact h c (Memory.mem_erase.mp hc).1
  · rcases Memory.mem_insert.mp hc with rfl | hc
    · exact ha
    · exact h c (Memory.mem_erase.mp hc).1

/-- In the canonical form, equal reads make equal lists. -/
theorem Memory.read_of_mem {m : Memory} (h : Memory.wf m) {c : Host.Cell} (hc : c ∈ m) : Memory.read m c.1 = c.2 := by
  obtain ⟨hp, -⟩ := h
  induction m with
  | nil => simp at hc
  | cons cell rest ih =>
    obtain ⟨k, v⟩ := cell
    rw [List.pairwise_cons] at hp
    rcases List.mem_cons.mp hc with rfl | hc
    · simp [Memory.read]
    · simp [Memory.read, Nat.ne_of_lt (hp.1 c hc), ih hc hp.2]

/-! ### Words -/

/-- What a word write does to every byte read: its four bytes, lowest first, and no other. -/
theorem Memory.read_writeWord (m : Memory) (a c : Nat) (v : Word) :
    (Memory.writeWord m a v).read c =
      if c = a then wordByte v 0 else if c = a + 1 then wordByte v 1 else if c = a + 2 then wordByte v 2
      else if c = a + 3 then wordByte v 3 else Memory.read m c := by
  simp only [Memory.writeWord, Memory.read_write]
  by_cases h0 : c = a
  · simp [h0]
  · by_cases h1 : c = a + 1
    · simp [h1]
    · by_cases h2 : c = a + 2
      · simp [h2]
      · simp [h0, h1, h2]

theorem Memory.read_writeWord_of_outside (m : Memory) {a c : Nat} (v : Word) (h : c < a ∨ a + 4 ≤ c) :
    (Memory.writeWord m a v).read c = Memory.read m c := by
  rw [Memory.read_writeWord, if_neg, if_neg, if_neg, if_neg] <;> omega

@[simp] theorem Memory.readWord_writeWord_self (m : Memory) (a : Nat) (v : Word) :
    (Memory.writeWord m a v).readWord a = v := by
  have h := le32_wordByte v
  simpa [Memory.readWord, Memory.read_writeWord] using h

theorem Memory.readWord_writeWord_of_disjoint (m : Memory) {a c : Nat} (v : Word) (h : c + 4 ≤ a ∨ a + 4 ≤ c) :
    (Memory.writeWord m a v).readWord c = Memory.readWord m c := by
  simp only [Memory.readWord]
  rw [Memory.read_writeWord_of_outside _ _ (by omega), Memory.read_writeWord_of_outside _ _ (by omega),
    Memory.read_writeWord_of_outside _ _ (by omega), Memory.read_writeWord_of_outside _ _ (by omega)]

/-- A word write keeps the canonical form. -/
theorem Memory.wf_writeWord {m : Memory} (a : Nat) (v : Word) (h : Memory.wf m) :
    Memory.wf (Memory.writeWord m a v) :=
  Memory.wf_write _ _ (Memory.wf_write _ _ (Memory.wf_write _ _ (Memory.wf_write _ _ h)))

theorem Memory.within_writeWord {m : Memory} {size a : Nat} (v : Word) (h : Memory.within m size)
    (ha : a + 4 ≤ size) : Memory.within (Memory.writeWord m a v) size :=
  Memory.within_write _ (Memory.within_write _ (Memory.within_write _ (Memory.within_write _ h (by omega))
    (by omega)) (by omega)) (by omega)

/-! ### Runs of bytes -/

@[simp] theorem Memory.length_readBytes (m : Memory) (a n : Nat) : (Memory.readBytes m a n).length = n := by
  induction n generalizing a with
  | zero => rfl
  | succ n ih => simp [Memory.readBytes, ih]

theorem Memory.getElem_readBytes (m : Memory) (a n k : Nat) (h : k < (Memory.readBytes m a n).length) :
    (Memory.readBytes m a n)[k] = m.read (a + k) := by
  induction n generalizing a k with
  | zero => simp at h
  | succ n ih =>
    cases k with
    | zero => simp [Memory.readBytes]
    | succ k =>
      simp only [Memory.readBytes, List.getElem_cons_succ]
      rw [ih (a + 1) k (by simpa [Memory.readBytes] using h)]
      congr 1; omega

theorem Memory.readBytes_add (m : Memory) (a n k : Nat) :
    Memory.readBytes m a (n + k) = Memory.readBytes m a n ++ Memory.readBytes m (a + n) k := by
  induction n generalizing a with
  | zero => simp [Memory.readBytes]
  | succ n ih =>
    rw [show n + 1 + k = (n + k) + 1 by omega]
    simp only [Memory.readBytes, List.cons_append, ih, show a + 1 + n = a + (n + 1) by omega]

/-- A run of byte writes keeps the canonical form. -/
theorem Memory.wf_writeBytes (size : Nat) {m : Memory} (a : Nat) (bs : List Byte) (h : Memory.wf m) :
    Memory.wf (Memory.writeBytes size m a bs) := by
  induction bs generalizing m a with
  | nil => exact h
  | cons b rest ih =>
    unfold Memory.writeBytes
    split
    · exact ih _ (Memory.wf_write _ _ h)
    · exact ih _ h

theorem Memory.within_writeBytes {size : Nat} {m : Memory} (a : Nat) (bs : List Byte) (h : Memory.within m size) :
    Memory.within (Memory.writeBytes size m a bs) size := by
  induction bs generalizing m a with
  | nil => exact h
  | cons b rest ih =>
    unfold Memory.writeBytes
    split
    · exact ih _ (Memory.within_write _ h ‹_›)
    · exact ih _ h

/-- What a run of byte writes does to every byte read. -/
theorem Memory.read_writeBytes (size : Nat) (m : Memory) (a c : Nat) (bs : List Byte) :
    (Memory.writeBytes size m a bs).read c =
      if a ≤ c ∧ c < a + bs.length ∧ c < size then bs.getD (c - a) 0 else Memory.read m c := by
  induction bs generalizing m a with
  | nil => simp [Memory.writeBytes]; omega
  | cons b rest ih =>
    rw [Memory.writeBytes, ih]
    by_cases hc : c = a
    · subst hc
      by_cases hs : c < size <;> simp [hs]
    · have hr : (if a < size then Memory.write m a b else m).read c = Memory.read m c := by
        split
        · exact Memory.read_write_of_ne _ _ hc
        · rfl
      rw [hr]
      by_cases hac : a < c
      · obtain ⟨k, rfl⟩ := Nat.exists_eq_add_of_lt hac
        simp only [show a + k + 1 - (a + 1) = k by omega, show a + k + 1 - a = k + 1 by omega,
          List.getD_cons_succ, List.length_cons]
        congr 1
        apply propext
        constructor <;> rintro ⟨h1, h2, h3⟩ <;> exact ⟨by omega, by omega, h3⟩
      · rw [if_neg (by omega), if_neg (by omega)]

/-! ### Strings -/

/-- A string scan answers exactly a run of non-zero bytes with a zero after it, inside the scanned length. -/
theorem Memory.scan_eq_some (m : Memory) (a n : Nat) (bs : List Byte) :
    Memory.scan m a n = some bs ↔
      bs.length < n ∧ bs = Memory.readBytes m a bs.length ∧ (∀ b ∈ bs, b ≠ 0) ∧ m.read (a + bs.length) = 0 := by
  induction n generalizing a bs with
  | zero => simp [Memory.scan]
  | succ n ih =>
    unfold Memory.scan
    by_cases h0 : Memory.read m a = 0
    · rw [if_pos h0]
      cases bs with
      | nil => simp [Memory.readBytes, h0]
      | cons b rest =>
        simp only [Option.some.injEq, List.length_cons, Memory.readBytes, List.cons.injEq, List.mem_cons]
        constructor
        · intro h; cases h
        · rintro ⟨-, ⟨hb, -⟩, hn, -⟩; exact absurd (hb.trans h0) (hn b (.inl rfl))
    · rw [if_neg h0]
      cases bs with
      | nil => simpa using fun _ => h0
      | cons b rest =>
        have shift (n : Nat) : a + (n + 1) = a + 1 + n := by omega
        simp only [Option.map_eq_some_iff, List.cons.injEq, ih, List.length_cons, Memory.readBytes,
          List.mem_cons]
        constructor
        · rintro ⟨bs', ⟨h1, h2, h3, h4⟩, rfl, rfl⟩
          exact ⟨by omega, ⟨rfl, h2⟩, fun b hb => hb.elim (fun h => h ▸ h0) (h3 b), by rw [shift]; exact h4⟩
        · rintro ⟨h1, ⟨hb, h2⟩, h3, h4⟩
          exact ⟨rest, ⟨by omega, h2, fun b hb => h3 b (.inr hb), by rw [← shift]; exact h4⟩, hb.symm, rfl⟩

/-- A string scan answers none exactly where every scanned byte is non-zero. -/
theorem Memory.scan_eq_none (m : Memory) (a n : Nat) :
    Memory.scan m a n = none ↔ ∀ k < n, m.read (a + k) ≠ 0 := by
  induction n generalizing a with
  | zero => simp [Memory.scan]
  | succ n ih =>
    unfold Memory.scan
    by_cases h0 : Memory.read m a = 0
    · simp only [h0, if_true, reduceCtorEq, false_iff]
      exact fun h => h 0 (by omega) h0
    · simp only [h0, if_false, Option.map_eq_none_iff, ih]
      constructor
      · intro h k hk
        cases k with
        | zero => exact h0
        | succ k => rw [show a + (k + 1) = a + 1 + k by omega]; exact h k (by omega)
      · intro h k hk
        rw [show a + 1 + k = a + (k + 1) by omega]; exact h (k + 1) (by omega)

end Sys2Proof.Machine
end

