-- ==== Sys2Proof/Laws/State.lean ====
section
/-! SUPPORT. One lemma per field of State and per update of it, so that no later proof unfolds a record
update, and the same for the register file and the fault flags. -/

namespace Sys2Proof.Machine

/-! ### Registers -/

theorem RegFile.get_set (f : RegFile) (r q : Reg) (v : Word) :
    (f.set r v).get q = if q = r then v else f.get q := by
  cases r <;> cases q <;> rfl

@[simp] theorem RegFile.get_set_self (f : RegFile) (r : Reg) (v : Word) : (f.set r v).get r = v := by
  simp [RegFile.get_set]

theorem RegFile.get_set_of_ne (f : RegFile) {r q : Reg} (v : Word) (h : q ≠ r) :
    (f.set r v).get q = f.get q := by
  simp [RegFile.get_set, h]

theorem RegFile.ext_get {f g : RegFile} (h : ∀ r, f.get r = g.get r) : f = g := by
  cases f; cases g
  have h1 := h .r1; have h2 := h .r2; have h3 := h .r3; have h4 := h .r4
  simp only [RegFile.get] at h1 h2 h3 h4
  simp only [h1, h2, h3, h4]

@[simp] theorem RegFile.get_zero (r : Reg) : RegFile.zero.get r = 0 := by cases r <;> rfl

@[simp] theorem State.reg_setReg_self (s : State) (r : Reg) (v : Word) : (s.setReg r v).reg r = v := by
  simp [State.reg, State.setReg]

theorem State.reg_setReg (s : State) (r q : Reg) (v : Word) :
    (s.setReg r v).reg q = if q = r then v else s.reg q := RegFile.get_set _ _ _ _

/-! ### setReg -/

@[simp] theorem State.setReg_cfg (s : State) (r : Reg) (v : Word) : (s.setReg r v).cfg = s.cfg := rfl
@[simp] theorem State.setReg_regs (s : State) (r : Reg) (v : Word) : (s.setReg r v).regs = s.regs.set r v := rfl
@[simp] theorem State.setReg_pc (s : State) (r : Reg) (v : Word) : (s.setReg r v).pc = s.pc := rfl
@[simp] theorem State.setReg_sp (s : State) (r : Reg) (v : Word) : (s.setReg r v).sp = s.sp := rfl
@[simp] theorem State.setReg_faults (s : State) (r : Reg) (v : Word) : (s.setReg r v).faults = s.faults := rfl
@[simp] theorem State.setReg_cmp (s : State) (r : Reg) (v : Word) : (s.setReg r v).cmp = s.cmp := rfl
@[simp] theorem State.setReg_run (s : State) (r : Reg) (v : Word) : (s.setReg r v).run = s.run := rfl
@[simp] theorem State.setReg_mem (s : State) (r : Reg) (v : Word) : (s.setReg r v).mem = s.mem := rfl
@[simp] theorem State.setReg_out (s : State) (r : Reg) (v : Word) : (s.setReg r v).out = s.out := rfl

/-! ### advance -/

@[simp] theorem State.advance_cfg (s : State) (n : Nat) : (s.advance n).cfg = s.cfg := rfl
@[simp] theorem State.advance_regs (s : State) (n : Nat) : (s.advance n).regs = s.regs := rfl
@[simp] theorem State.advance_reg (s : State) (n : Nat) (r : Reg) : (s.advance n).reg r = s.reg r := rfl
@[simp] theorem State.advance_pc (s : State) (n : Nat) : (s.advance n).pc = s.pc + n := rfl
@[simp] theorem State.advance_sp (s : State) (n : Nat) : (s.advance n).sp = s.sp := rfl
@[simp] theorem State.advance_faults (s : State) (n : Nat) : (s.advance n).faults = s.faults := rfl
@[simp] theorem State.advance_cmp (s : State) (n : Nat) : (s.advance n).cmp = s.cmp := rfl
@[simp] theorem State.advance_run (s : State) (n : Nat) : (s.advance n).run = s.run := rfl
@[simp] theorem State.advance_mem (s : State) (n : Nat) : (s.advance n).mem = s.mem := rfl
@[simp] theorem State.advance_out (s : State) (n : Nat) : (s.advance n).out = s.out := rfl

/-! ### raise -/

@[simp] theorem State.raise_cfg (s : State) (f : FaultKind) : (s.raise f).cfg = s.cfg := rfl
@[simp] theorem State.raise_regs (s : State) (f : FaultKind) : (s.raise f).regs = s.regs := rfl
@[simp] theorem State.raise_reg (s : State) (f : FaultKind) (r : Reg) : (s.raise f).reg r = s.reg r := rfl
@[simp] theorem State.raise_pc (s : State) (f : FaultKind) : (s.raise f).pc = s.pc := rfl
@[simp] theorem State.raise_sp (s : State) (f : FaultKind) : (s.raise f).sp = s.sp := rfl
@[simp] theorem State.raise_faults (s : State) (f : FaultKind) : (s.raise f).faults = s.faults.set f := rfl
@[simp] theorem State.raise_cmp (s : State) (f : FaultKind) : (s.raise f).cmp = s.cmp := rfl
@[simp] theorem State.raise_run (s : State) (f : FaultKind) : (s.raise f).run = .stoppedFault := rfl
@[simp] theorem State.raise_mem (s : State) (f : FaultKind) : (s.raise f).mem = s.mem := rfl
@[simp] theorem State.raise_out (s : State) (f : FaultKind) : (s.raise f).out = s.out := rfl

/-! ### dropWord and emit -/

@[simp] theorem State.dropWord_cfg (s : State) : s.dropWord.cfg = s.cfg := rfl
@[simp] theorem State.dropWord_regs (s : State) : s.dropWord.regs = s.regs := rfl
@[simp] theorem State.dropWord_reg (s : State) (r : Reg) : s.dropWord.reg r = s.reg r := rfl
@[simp] theorem State.dropWord_pc (s : State) : s.dropWord.pc = s.pc := rfl
@[simp] theorem State.dropWord_sp (s : State) : s.dropWord.sp = s.sp + 4 := rfl
@[simp] theorem State.dropWord_faults (s : State) : s.dropWord.faults = s.faults := rfl
@[simp] theorem State.dropWord_cmp (s : State) : s.dropWord.cmp = s.cmp := rfl
@[simp] theorem State.dropWord_run (s : State) : s.dropWord.run = s.run := rfl
@[simp] theorem State.dropWord_mem (s : State) : s.dropWord.mem = s.mem := rfl
@[simp] theorem State.dropWord_out (s : State) : s.dropWord.out = s.out := rfl

@[simp] theorem State.emit_cfg (s : State) (e : Event) : (s.emit e).cfg = s.cfg := rfl
@[simp] theorem State.emit_regs (s : State) (e : Event) : (s.emit e).regs = s.regs := rfl
@[simp] theorem State.emit_reg (s : State) (e : Event) (r : Reg) : (s.emit e).reg r = s.reg r := rfl
@[simp] theorem State.emit_pc (s : State) (e : Event) : (s.emit e).pc = s.pc := rfl
@[simp] theorem State.emit_sp (s : State) (e : Event) : (s.emit e).sp = s.sp := rfl
@[simp] theorem State.emit_faults (s : State) (e : Event) : (s.emit e).faults = s.faults := rfl
@[simp] theorem State.emit_cmp (s : State) (e : Event) : (s.emit e).cmp = s.cmp := rfl
@[simp] theorem State.emit_run (s : State) (e : Event) : (s.emit e).run = s.run := rfl
@[simp] theorem State.emit_mem (s : State) (e : Event) : (s.emit e).mem = s.mem := rfl
@[simp] theorem State.emit_out (s : State) (e : Event) : (s.emit e).out = s.out ++ [e] := rfl

/-! ### Fault flags -/

theorem FaultFlags.has_set (f : FaultFlags) (k j : FaultKind) :
    (f.set k).has j = (decide (j = k) || f.has j) := by
  cases k <;> cases j <;> rfl

@[simp] theorem FaultFlags.has_clear (k : FaultKind) : FaultFlags.clear.has k = false := by cases k <;> rfl

/-! ### Construction -/

@[simp] theorem State.construct_cfg (c : Config) : (State.construct c).cfg = c := rfl
@[simp] theorem State.construct_regs (c : Config) : (State.construct c).regs = RegFile.zero := rfl
@[simp] theorem State.construct_pc (c : Config) : (State.construct c).pc = 0 := rfl
@[simp] theorem State.construct_sp (c : Config) : (State.construct c).sp = c.memSize := rfl
@[simp] theorem State.construct_faults (c : Config) : (State.construct c).faults = FaultFlags.clear := rfl
@[simp] theorem State.construct_cmp (c : Config) : (State.construct c).cmp = .none := rfl
@[simp] theorem State.construct_run (c : Config) : (State.construct c).run = .running := rfl
@[simp] theorem State.construct_mem (c : Config) : (State.construct c).mem = [] := rfl
@[simp] theorem State.construct_out (c : Config) : (State.construct c).out = [] := rfl

end Sys2Proof.Machine
end

