-- ==== Sys2Proof/Laws/Ops.lean ====
section
/-! SUPPORT. One specification lemma per shared operation: everything it can answer. Proofs about an instruction
cite these and leave the operations folded. -/

namespace Sys2Proof.Machine

/-! ### Sequencing and the end of a meaning -/

@[simp] theorem ok_bind {α β : Type} (a : α) (k : α → Except FaultKind β) : (Except.ok a >>= k) = k a := rfl

@[simp] theorem error_bind {α β : Type} (f : FaultKind) (k : α → Except FaultKind β) :
    ((Except.error f : Except FaultKind α) >>= k) = .error f := rfl

@[simp] theorem pure_eq_ok {α : Type} (a : α) : (pure a : Except FaultKind α) = .ok a := rfl

theorem bind_eq_ok {α β : Type} {x : Except FaultKind α} {k : α → Except FaultKind β} {b : β} :
    (x >>= k) = .ok b ↔ ∃ a, x = .ok a ∧ k a = .ok b := by
  cases x <;> simp

theorem bind_eq_error {α β : Type} {x : Except FaultKind α} {k : α → Except FaultKind β} {f : FaultKind} :
    (x >>= k) = .error f ↔ x = .error f ∨ ∃ a, x = .ok a ∧ k a = .error f := by
  cases x <;> simp

@[simp] theorem complete_ok (s t : State) : complete s (.ok t) = .next t := rfl

@[simp] theorem complete_error (s : State) (f : FaultKind) : complete s (.error f) = .next (s.raise f) := rfl

/-- Everything a meaning's end can answer: the completed rule, or its fault on the first state. -/
theorem complete_eq_next {s t : State} {r : Except FaultKind State} :
    complete s r = .next t ↔ r = .ok t ∨ ∃ f, r = .error f ∧ s.raise f = t := by
  cases r <;> simp

theorem complete_answers (s : State) (r : Except FaultKind State) : ∃ t, complete s r = .next t := by
  cases r <;> simp

/-! ### Checks -/

theorem check_of {p : Prop} [Decidable p] (f : FaultKind) (h : p) : check p f = .ok () := if_pos h

theorem check_of_not {p : Prop} [Decidable p] (f : FaultKind) (h : ¬ p) : check p f = .error f := if_neg h

theorem check_eq_ok {p : Prop} [Decidable p] {f : FaultKind} {u : Unit} : check p f = .ok u ↔ p := by
  by_cases h : p <;> simp [check, h]

theorem check_eq_error {p : Prop} [Decidable p] {f g : FaultKind} : check p f = .error g ↔ ¬ p ∧ f = g := by
  by_cases h : p <;> simp [check, h]

/-! ### Operands -/

@[simp] theorem regOperand_byte (r : Reg) : regOperand r.byte = .ok r := by cases r <;> rfl

theorem Reg.ofByte?_eq_some {b : Byte} {r : Reg} : Reg.ofByte? b = some r ↔ b = r.byte := by
  unfold Reg.ofByte?
  constructor
  · intro h
    split at h
    · cases h; assumption
    · split at h
      · cases h; assumption
      · split at h
        · cases h; assumption
        · split at h
          · cases h; assumption
          · cases h
  · rintro rfl; cases r <;> rfl

theorem Reg.ofByte?_eq_none {b : Byte} : Reg.ofByte? b = none ↔ 4 ≤ b.toNat := by
  unfold Reg.ofByte?
  have h (n : Nat) (hn : n < 256) : (b = BitVec.ofNat 8 n) ↔ b.toNat = n := by
    rw [← BitVec.toNat_inj, BitVec.toNat_ofNat, Nat.mod_eq_of_lt (by omega)]
  have h0 : (b = 0) ↔ b.toNat = 0 := h 0 (by omega)
  have h1 : (b = 1) ↔ b.toNat = 1 := h 1 (by omega)
  have h2 : (b = 2) ↔ b.toNat = 2 := h 2 (by omega)
  have h3 : (b = 3) ↔ b.toNat = 3 := h 3 (by omega)
  simp only [h0, h1, h2, h3]
  constructor
  · intro hn
    split at hn <;> try cases hn
    split at hn <;> try cases hn
    split at hn <;> try cases hn
    split at hn <;> try cases hn
    omega
  · intro hb
    rw [if_neg (by omega), if_neg (by omega), if_neg (by omega), if_neg (by omega)]

/-- A register field's byte: one of the four, or INVALID_REGISTER_INDEX. -/
theorem regOperand_eq_ok {b : Byte} {r : Reg} : regOperand b = .ok r ↔ b = r.byte := by
  rw [← Reg.ofByte?_eq_some, regOperand]
  cases Reg.ofByte? b <;> simp

theorem regOperand_of_invalid {b : Byte} (h : 4 ≤ b.toNat) : regOperand b = .error .invalidRegisterIndex := by
  rw [regOperand, Reg.ofByte?_eq_none.mpr h]

theorem regOperand_eq_error {b : Byte} {f : FaultKind} :
    regOperand b = .error f ↔ 4 ≤ b.toNat ∧ f = .invalidRegisterIndex := by
  rw [← Reg.ofByte?_eq_none, regOperand]
  cases Reg.ofByte? b <;> simp [eq_comm]

theorem exists_reg_of_lt {b : Byte} (h : b.toNat < 4) : ∃ r : Reg, b = r.byte := by
  cases hb : Reg.ofByte? b with
  | none => exact absurd (Reg.ofByte?_eq_none.mp hb) (by omega)
  | some r => exact ⟨r, Reg.ofByte?_eq_some.mp hb⟩

@[simp] theorem serviceOperand_printInteger (m : IntMap) : serviceOperand m m.printInteger = .ok .printInteger :=
  if_pos rfl

theorem serviceOperand_printString {m : IntMap} (h : m.wf) : serviceOperand m m.printString = .ok .printString := by
  rw [serviceOperand, if_neg (Ne.symm h), if_pos rfl]

theorem serviceOperand_of_unknown {m : IntMap} {n : Byte} (h1 : n ≠ m.printInteger) (h2 : n ≠ m.printString) :
    serviceOperand m n = .error .badInstruction := by
  rw [serviceOperand, if_neg h1, if_neg h2]

/-- A data address: the unsigned operand with its word inside memory, or BAD_ACCESS. -/
theorem dataAddress_eq (s : State) (addr : Word) :
    dataAddress s addr = if addr.toNat + 4 ≤ s.cfg.memSize then .ok addr.toNat else .error .badAccess := by
  unfold dataAddress check u32; split <;> rfl

/-- A control-transfer target: the unsigned operand below MEM_SIZE, or BAD_ACCESS. -/
theorem jumpTarget_eq (s : State) (addr : Word) :
    jumpTarget s addr = if addr.toNat < s.cfg.memSize then .ok addr.toNat else .error .badAccess := by
  unfold jumpTarget check u32; split <;> rfl

/-! ### Data accesses and the stack -/

theorem State.loadWord_eq (s : State) (a : Nat) :
    s.loadWord a = if a + 4 ≤ s.cfg.memSize then .ok (s.mem.readWord a) else .error .badAccess := by
  unfold State.loadWord check; split <;> rfl

theorem State.storeWord_eq (s : State) (a : Nat) (v : Word) :
    s.storeWord a v =
      if a + 4 ≤ s.cfg.memSize then .ok { s with mem := s.mem.writeWord a v } else .error .badAccess := by
  unfold State.storeWord check; split <;> rfl

/-- A push: the word written below `sp` and `sp` moved down, or BAD_ACCESS where that word is outside memory. -/
theorem State.pushWord_eq (s : State) (v : Word) :
    s.pushWord v =
      if s.sp - 4 + 4 ≤ s.cfg.memSize then .ok { s with mem := s.mem.writeWord (s.sp - 4) v, sp := s.sp - 4 }
      else .error .badAccess := by
  unfold State.pushWord
  rw [State.storeWord_eq]
  split <;> rfl

/-- The top of the stack: its word, or STACK_UNDERFLOW. -/
theorem State.topWord_eq (s : State) :
    s.topWord = if s.sp + 4 ≤ s.cfg.memSize then .ok (s.mem.readWord s.sp) else .error .stackUnderflow := by
  unfold State.topWord
  rw [State.loadWord_eq]
  by_cases h : s.sp + 4 ≤ s.cfg.memSize <;> simp [check, h]

/-- The string at an address where one ends inside memory. -/
theorem State.stringAt_eq_ok (s : State) (a : Nat) (bs : List Byte) :
    s.stringAt a = .ok bs ↔
      a + bs.length < s.cfg.memSize ∧ bs = s.mem.readBytes a bs.length ∧ (∀ b ∈ bs, b ≠ 0) ∧
        s.mem.read (a + bs.length) = 0 := by
  have h : s.stringAt a = .ok bs ↔ s.mem.scan a (s.cfg.memSize - a) = some bs := by
    unfold State.stringAt
    cases s.mem.scan a (s.cfg.memSize - a) <;> simp
  rw [h, Memory.scan_eq_some]
  constructor <;> rintro ⟨h1, h2⟩ <;> exact ⟨by omega, h2⟩

/-- The string at an address where none ends inside memory. -/
theorem State.stringAt_of_unterminated (s : State) (a : Nat)
    (h : ∀ k, a ≤ k → k < s.cfg.memSize → s.mem.read k ≠ 0) : s.stringAt a = .error .badAccess := by
  unfold State.stringAt
  rw [(Memory.scan_eq_none _ _ _).mpr (fun k hk => h (a + k) (by omega) (by omega))]

theorem State.stringAt_eq_error {s : State} {a : Nat} {f : FaultKind} (h : s.stringAt a = .error f) :
    f = .badAccess := by
  unfold State.stringAt at h
  split at h <;> cases h
  rfl

/-! ### The comparison result -/

theorem compareSigned_ne_none (a b : Word) : compareSigned a b ≠ .none := by
  unfold compareSigned; split <;> [skip; split] <;> simp

/-- The three comparison results, by the signed order of the operands. -/
theorem compareSigned_spec (a b : Word) :
    (compareSigned a b = .below ↔ a.toInt < b.toInt) ∧ (compareSigned a b = .equal ↔ a.toInt = b.toInt) ∧
      (compareSigned a b = .above ↔ b.toInt < a.toInt) := by
  unfold compareSigned s32
  rcases lt_trichotomy a.toInt b.toInt with h | h | h
  · simp [h, h.ne, h.le]
  · simp [h]
  · simp [h, h.ne', not_lt.mpr h.le]

/-! ### Branches -/

@[simp] theorem State.branchOn_cfg (s : State) (w : CmpResult) (t : Nat) : (s.branchOn w t).cfg = s.cfg := by
  unfold State.branchOn; split <;> rfl
@[simp] theorem State.branchOn_regs (s : State) (w : CmpResult) (t : Nat) : (s.branchOn w t).regs = s.regs := by
  unfold State.branchOn; split <;> rfl
@[simp] theorem State.branchOn_pc (s : State) (w : CmpResult) (t : Nat) :
    (s.branchOn w t).pc = if s.cmp = w then t else s.pc + 5 := by
  unfold State.branchOn; split <;> rfl
@[simp] theorem State.branchOn_sp (s : State) (w : CmpResult) (t : Nat) : (s.branchOn w t).sp = s.sp := by
  unfold State.branchOn; split <;> rfl
@[simp] theorem State.branchOn_faults (s : State) (w : CmpResult) (t : Nat) : (s.branchOn w t).faults = s.faults := by
  unfold State.branchOn; split <;> rfl
@[simp] theorem State.branchOn_cmp (s : State) (w : CmpResult) (t : Nat) : (s.branchOn w t).cmp = s.cmp := by
  unfold State.branchOn; split <;> rfl
@[simp] theorem State.branchOn_run (s : State) (w : CmpResult) (t : Nat) : (s.branchOn w t).run = s.run := by
  unfold State.branchOn; split <;> rfl
@[simp] theorem State.branchOn_mem (s : State) (w : CmpResult) (t : Nat) : (s.branchOn w t).mem = s.mem := by
  unfold State.branchOn; split <;> rfl
@[simp] theorem State.branchOn_out (s : State) (w : CmpResult) (t : Nat) : (s.branchOn w t).out = s.out := by
  unfold State.branchOn; split <;> rfl

end Sys2Proof.Machine
end

