-- ==== Sys2Proof/Laws/PerInstr.lean ====
section
/-! SUPPORT. The family of statements made per instruction: the length of every encoding (30_encoding.md R54,
R60, R62). -/

namespace Sys2Proof.Laws.EncodingLength

/-- Under every map an instruction's encoding has the length of its mnemonic, 1 to 6 bytes, and begins with its
mnemonic's opcode byte. -/
def Statement (i : Instr) : Prop :=
  ∀ m : OpcodeMap, (encode m i).length = i.mnemonic.length ∧ 1 ≤ (encode m i).length ∧
    (encode m i).length ≤ maxInstrLength ∧ (encode m i).head? = some (m.byte i.mnemonic)

/-- All four clauses follow from the number of operand bytes. -/
theorem of_length {i : Instr} (h : i.operandBytes.length + 1 = i.mnemonic.length) : Statement i := fun _ =>
  ⟨h, by simp [encode], h.trans_le i.mnemonic.length_le, rfl⟩

theorem const (reg : Byte) (imm : Word) : Statement (.const reg imm) := of_length rfl
theorem add (src dst : Byte) : Statement (.add src dst) := of_length rfl
theorem neg (reg : Byte) : Statement (.neg reg) := of_length rfl
theorem mul (src dst : Byte) : Statement (.mul src dst) := of_length rfl
theorem div (src dst : Byte) : Statement (.div src dst) := of_length rfl
theorem mod (src dst : Byte) : Statement (.mod src dst) := of_length rfl
theorem cmp (r1 r2 : Byte) : Statement (.cmp r1 r2) := of_length rfl
theorem ja (addr : Word) : Statement (.ja addr) := of_length rfl
theorem je (addr : Word) : Statement (.je addr) := of_length rfl
theorem jb (addr : Word) : Statement (.jb addr) := of_length rfl
theorem jmp (addr : Word) : Statement (.jmp addr) := of_length rfl
theorem call (addr : Word) : Statement (.call addr) := of_length rfl
theorem ret : Statement (.ret) := of_length rfl
theorem load (reg : Byte) (addr : Word) : Statement (.load reg addr) := of_length rfl
theorem store (reg : Byte) (addr : Word) : Statement (.store reg addr) := of_length rfl
theorem push (reg : Byte) : Statement (.push reg) := of_length rfl
theorem pop (reg : Byte) : Statement (.pop reg) := of_length rfl
theorem pushAll : Statement (.pushAll) := of_length rfl
theorem popAll : Statement (.popAll) := of_length rfl
theorem lsp (reg : Byte) : Statement (.lsp reg) := of_length rfl
theorem int (intno : Byte) : Statement (.int intno) := of_length rfl
theorem halt : Statement (.halt) := of_length rfl
theorem nop : Statement (.nop) := of_length rfl

end Sys2Proof.Laws.EncodingLength
end

