-- ==== Sys2Proof/Tests/Slice0.lean ====
section
/-! SUPPORT. The model's own tests: well-formedness refusals, words written out from 30_encoding.md, one-step vectors of
95_test_vectors.md, and for each obligation with hypotheses a witness that meets them. Expected values come from
spec/. MEM_SIZE is 64 and STACK_LIMIT 32 throughout. -/

namespace Sys2Proof.Tests

open Sys2Proof Sys2Proof.Machine

/-! ### Helpers -/

/-- `create(64, 32)` with the default maps, the instance of 95_test_vectors.md L2. -/
def cfg64 : Config := ⟨64, 32, OpcodeMap.default, IntMap.default⟩

/-- The construction of `cfg64` with bytes from an address on, and `pc` there. -/
def vm (pc : Nat) (bytes : List Byte) : State :=
  { State.construct cfg64 with pc := pc, mem := Memory.writeBytes 64 [] pc bytes }

/-- Further bytes of memory. -/
def put (s : State) (a : Nat) (bytes : List Byte) : State := { s with mem := s.mem.writeBytes 64 a bytes }

/-- The registers set. -/
def withRegs (s : State) (a b c d : Word) : State := { s with regs := ⟨a, b, c, d⟩ }

/-- The stack pointer set. -/
def withSp (s : State) (sp : Nat) : State := { s with sp := sp }

/-- What a reading of the next state gives, none where there is no next state. -/
def after {α : Type} (s : State) (f : State → α) : Option α :=
  match step s with
  | .next t => some (f t)
  | .fault _ => none
  | .refused _ => none

/-- The one fault flag that a step sets, with `pc`, `sp` and the registers it leaves. -/
def trap (s : State) : Option (List FaultKind × Run × Nat × Nat × RegFile) :=
  after s fun t => ([FaultKind.badInstruction, .badAccess, .invalidRegisterIndex, .stackOverflow, .stackUnderflow].filter
    t.faults.has, t.run, t.pc, t.sp, t.regs)

/-- What `trap` reads where a fault is raised and nothing else is written. -/
def raised (s : State) (f : FaultKind) : Option (List FaultKind × Run × Nat × Nat × RegFile) :=
  some ([f], .stoppedFault, s.pc, s.sp, s.regs)

/-- The registers as signed integers. -/
def ints (s : State) : List Int := [s.regs.r1.toInt, s.regs.r2.toInt, s.regs.r3.toInt, s.regs.r4.toInt]

/-! ### Well-formedness: one refused term for each check -/

/-- Step (5a): register byte 4 (40_dispatch.md R81). -/
theorem test_wf_refuses_register : (Instr.push 4).wellFormed cfg64 = false := by decide

/-- Step (5b): interrupt number 3 (40_dispatch.md R82). -/
theorem test_wf_refuses_interrupt : (Instr.int 3).wellFormed cfg64 = false := by decide

/-- Step (5b): the word at 61 ends past 64 (40_dispatch.md R82). -/
theorem test_wf_refuses_data_address : (Instr.load 0 61).wellFormed cfg64 = false := by decide

/-- Step (5b): the target 64 (40_dispatch.md R82). -/
theorem test_wf_refuses_target : (Instr.jmp 64).wellFormed cfg64 = false := by decide

/-- The last good value of each: register 3, service 2, address 60, target 63. -/
theorem test_wf_accepts_last_values : (Instr.push 3).wellFormed cfg64 = true ∧ (Instr.int 2).wellFormed cfg64 = true ∧
    (Instr.load 0 60).wellFormed cfg64 = true ∧ (Instr.jmp 63).wellFormed cfg64 = true := by decide

/-! ### Decoding: every constructor's bytes, written out from 30_encoding.md R56, R60 and R69 -/

/-- Decoding under the default map. -/
abbrev dec (bs : List Byte) : Except DecodeError (Instr × List Byte) := decode OpcodeMap.default bs

theorem test_decode_const : dec [0x32, 0x02, 0x78, 0x56, 0x34, 0x12, 0x40] = .ok (.const 2 0x12345678, [0x40]) := by rfl
theorem test_decode_add : dec [0x01, 0x00, 0x03] = .ok (.add 0 3, []) := by rfl
theorem test_decode_neg : dec [0x02, 0x01] = .ok (.neg 1, []) := by rfl
theorem test_decode_mul : dec [0x03, 0x02, 0x01] = .ok (.mul 2 1, []) := by rfl
theorem test_decode_div : dec [0x04, 0x01, 0x00] = .ok (.div 1 0, []) := by rfl
theorem test_decode_mod : dec [0x05, 0x01, 0x00] = .ok (.mod 1 0, []) := by rfl
theorem test_decode_cmp : dec [0x10, 0x00, 0x0A] = .ok (.cmp 0 10, []) := by rfl
theorem test_decode_ja : dec [0x11, 0x20, 0x00, 0x00, 0x00] = .ok (.ja 32, []) := by rfl
theorem test_decode_je : dec [0x12, 0x00, 0x01, 0x00, 0x00] = .ok (.je 256, []) := by rfl
theorem test_decode_jb : dec [0x13, 0x00, 0x00, 0x01, 0x00] = .ok (.jb 65536, []) := by rfl
theorem test_decode_jmp : dec [0x14, 0x34, 0x12, 0x00, 0x00] = .ok (.jmp 0x1234, []) := by rfl
theorem test_decode_call : dec [0x20, 0x28, 0x00, 0x00, 0x80] = .ok (.call 0x80000028, []) := by rfl
theorem test_decode_ret : dec [0x21, 0x99] = .ok (.ret, [0x99]) := by rfl
theorem test_decode_load : dec [0x30, 0x01, 0x3C, 0x00, 0x00, 0x00] = .ok (.load 1 60, []) := by rfl
theorem test_decode_store : dec [0x31, 0x04, 0xFF, 0xFF, 0xFF, 0xFF] = .ok (.store 4 0xFFFFFFFF, []) := by rfl
theorem test_decode_push : dec [0x50, 0x02] = .ok (.push 2, []) := by rfl
theorem test_decode_pop : dec [0x52, 0xFF] = .ok (.pop 0xFF, []) := by rfl
theorem test_decode_pushAll : dec [0x51] = .ok (.pushAll, []) := by rfl
theorem test_decode_popAll : dec [0x53] = .ok (.popAll, []) := by rfl
theorem test_decode_lsp : dec [0x54, 0x03] = .ok (.lsp 3, []) := by rfl
theorem test_decode_int : dec [0x41, 0x02] = .ok (.int 2, []) := by rfl
theorem test_decode_halt : dec [0x40] = .ok (.halt, []) := by rfl
theorem test_decode_nop : dec [0x42] = .ok (.nop, []) := by rfl

/-- R63: an unassigned byte has no length and no mnemonic. -/
theorem test_decode_unassigned : dec [0x33, 0, 0, 0, 0, 0] = .error (.unassigned 0x33) := by rfl

/-- The bits of JMP 0x1234 numbered as the opcode table numbers them, and an operand given no bits. -/
theorem test_decodeTableWord : decodeTableWord 40 0x123414 = some (.jmp 0x1234) ∧
    decodeTableWord 8 0x32 = some (.const 0 0) ∧ decodeTableWord 8 0xFF = none := by decide

/-- A word placed with `withFetchWord` is the instruction the first step after reset runs. -/
theorem test_withFetchWord : after (State.reset.withFetchWord 48 0x640032) (fun t => (t.pc, t.sp, ints t)) =
    some (6, 1024, [100, 0, 0, 0]) := by decide

/-! ### One-step vectors of 95_test_vectors.md, by their ids there -/

theorem test_VA1_const : after (vm 0 [0x32, 0, 0, 0, 0, 0x80]) (fun t => (t.pc, ints t)) =
    some (6, [-2147483648, 0, 0, 0]) := by decide
theorem test_VA2_add_wraps : after (withRegs (vm 0 [1, 0, 1]) 1 0x7FFFFFFF 0 0) (fun t => (t.pc, ints t)) =
    some (3, [1, -2147483648, 0, 0]) := by decide
theorem test_VA3_add_same : after (withRegs (vm 0 [1, 0, 0]) 5 0 0 0) ints = some [10, 0, 0, 0] := by decide
theorem test_VA4_neg : after (withRegs (vm 0 [2, 0]) 0x80000000 0 0 0) (fun t => (t.pc, ints t)) =
    some (2, [-2147483648, 0, 0, 0]) := by decide
theorem test_VA7_mul : after (withRegs (vm 0 [3, 0, 1]) 2 0x7FFFFFFF 0 0) ints = some [2, -2, 0, 0] := by decide
theorem test_VA9_mul_same : after (withRegs (vm 0 [3, 0, 0]) (-9) 0 0 0) ints = some [81, 0, 0, 0] := by decide
theorem test_VA19_div : after (withRegs (vm 0 [4, 1, 0]) (-7) 2 0 0) (fun t => (t.pc, ints t)) =
    some (3, [-3, 2, 0, 0]) := by decide
theorem test_VA23_div_overflow : after (withRegs (vm 0 [4, 1, 0]) 0x80000000 (-1) 0 0) ints =
    some [-2147483648, -1, 0, 0] := by decide
theorem test_VA19_mod : after (withRegs (vm 0 [5, 1, 0]) (-7) 2 0 0) ints = some [-1, 2, 0, 0] := by decide
theorem test_VA20_mod : after (withRegs (vm 0 [5, 1, 0]) 7 (-2) 0 0) ints = some [1, -2, 0, 0] := by decide
theorem test_VA15_register : trap (withRegs (vm 0 [1, 4, 0]) 1 2 0 0) =
    raised (withRegs (vm 0 []) 1 2 0 0) .invalidRegisterIndex := by decide

theorem test_VB1_cmp_signed : after (withRegs (vm 0 [0x10, 0, 1]) (-1) 1 0 0) (fun t => (t.pc, t.cmp)) =
    some (3, .below) := by decide
theorem test_VB4_cmp_above : after (withRegs (vm 0 [0x10, 0, 1]) 5 (-5) 0 0) (fun t => t.cmp) = some .above := by decide
theorem test_VB5_ja_none : after (vm 10 [0x11, 32, 0, 0, 0]) (fun t => t.pc) = some 15 := by decide
theorem test_VB6_ja_taken : after { vm 10 [0x11, 32, 0, 0, 0] with cmp := .above } (fun t => t.pc) = some 32 := by decide
theorem test_VB7_je_not_taken : after { vm 10 [0x12, 32, 0, 0, 0] with cmp := .below } (fun t => t.pc) = some 15 := by
  decide
theorem test_VB8_jb_taken : after { vm 10 [0x13, 32, 0, 0, 0] with cmp := .below } (fun t => t.pc) = some 32 := by decide
theorem test_VB9_jmp_outside : trap (vm 10 [0x14, 64, 0, 0, 0]) = raised (vm 10 []) .badAccess := by decide
theorem test_VB10_je_checked_untaken : trap { vm 10 [0x12, 64, 0, 0, 0] with cmp := .below } =
    raised (vm 10 []) .badAccess := by decide
theorem test_VB14_jmp_self : after (vm 10 [0x14, 10, 0, 0, 0]) (fun t => (t.pc, t.run)) = some (10, .running) := by decide

theorem test_VS1_call : after (withSp (vm 13 [0x20, 40, 0, 0, 0]) 36)
    (fun t => (t.pc, t.sp, t.mem.readBytes 32 4)) = some (40, 32, [18, 0, 0, 0]) := by decide
theorem test_VS3_call_target_first : trap (withSp (vm 13 [0x20, 64, 0, 0, 0]) 32) =
    raised (withSp (vm 13 []) 32) .badAccess := by decide
theorem test_VS4_ret_empty : trap (vm 5 [0x21]) = raised (vm 5 []) .stackUnderflow := by decide
theorem test_VS5_ret_unchecked : after (withSp (put (vm 5 [0x21]) 60 [0xFF, 0xFF, 0xFF, 0xFF]) 60)
    (fun t => (t.pc, t.sp, t.run)) = some (0xFFFFFFFF, 64, .running) := by decide

theorem test_VL1_load : after (put (vm 0 [0x30, 1, 60, 0, 0, 0]) 60 [0x44, 0x33, 0x22, 0x11])
    (fun t => (t.pc, t.regs.r2)) = some (6, 0x11223344) := by decide
theorem test_VL5_load_no_wrap : trap (vm 0 [0x30, 0, 0xFF, 0xFF, 0xFF, 0xFF]) = raised (vm 0 []) .badAccess := by decide
theorem test_VL4_store_register_first : trap (vm 0 [0x31, 4, 0xFF, 0xFF, 0xFF, 0xFF]) =
    raised (vm 0 []) .invalidRegisterIndex := by decide
theorem test_VL8_store_over_itself : after (withRegs (vm 0 [0x31, 0, 0, 0, 0, 0]) 0x5A 0 0 0)
    (fun t => (t.pc, t.mem.readBytes 0 4)) = some (6, [0x5A, 0, 0, 0]) := by decide

theorem test_VK1_push_full : trap (withSp (vm 0 [0x50, 0]) 36) = raised (withSp (vm 0 []) 36) .stackOverflow := by decide
theorem test_VK2_push : after (withSp (withRegs (vm 0 [0x50, 0]) 9 0 0 0) 40)
    (fun t => (t.pc, t.sp, t.mem.readBytes 36 4)) = some (2, 36, [9, 0, 0, 0]) := by decide
theorem test_VK4_pop : after (withSp (put (vm 0 [0x52, 1]) 60 [0x78, 0x56, 0x34, 0x12]) 60)
    (fun t => (t.regs.r2, t.sp, t.mem.readBytes 60 4)) = some (0x12345678, 64, [0x78, 0x56, 0x34, 0x12]) := by decide
theorem test_VK5_pushAll_full : trap (withSp (withRegs (vm 0 [0x51]) 1 2 3 4) 48) =
    raised (withSp (withRegs (vm 0 []) 1 2 3 4) 48) .stackOverflow := by decide
theorem test_VK6_pushAll : after (withSp (withRegs (vm 0 [0x51]) 1 2 3 4) 52)
    (fun t => (t.pc, t.sp, t.mem.readBytes 36 16)) =
    some (1, 36, [4, 0, 0, 0, 3, 0, 0, 0, 2, 0, 0, 0, 1, 0, 0, 0]) := by decide
theorem test_VK7_popAll_short : trap (withSp (vm 0 [0x53]) 52) = raised (withSp (vm 0 []) 52) .stackUnderflow := by decide
theorem test_VK8_popAll : after (withSp (put (vm 0 [0x53]) 48 [4, 0, 0, 0, 3, 0, 0, 0, 2, 0, 0, 0, 1]) 48)
    (fun t => (ints t, t.sp)) = some ([1, 2, 3, 4], 64) := by decide
theorem test_VK9_lsp : after (vm 0 [0x54, 3]) ints = some [0, 0, 0, 64] := by decide

theorem test_VI1_print_integer : after (withSp (put (vm 0 [0x41, 1]) 60 [0, 0, 0, 0x80]) 60)
    (fun t => (t.out, t.sp, t.pc)) = some ([.int 0x80000000], 64, 2) := by decide
theorem test_VI3_int_number_first : trap (vm 0 [0x41, 3]) = raised (vm 0 []) .badInstruction := by decide
theorem test_VI5_print_string : after (withSp (put (vm 0 [0x41, 2]) 60 [0x3C, 0, 0, 0]) 60)
    (fun t => (t.out, t.sp)) = some ([.bytes [0x3C]], 64) := by decide
theorem test_VI6_print_string_outside : trap (withSp (put (vm 0 [0x41, 2]) 60 [0x40, 0, 0, 0]) 60) =
    raised (withSp (vm 0 []) 60) .badAccess := by decide

/-- Scenario A, its last step: HALT at 15 (95_test_vectors.md L1.1). -/
theorem test_halt : after (vm 15 [0x40]) (fun t => (t.pc, t.run)) = some (16, .stoppedOk) := by decide
theorem test_nop : after (vm 63 [0x42]) (fun t => (t.pc, t.run)) = some (64, .running) := by decide

/-- Scenario D in the last byte (95_test_vectors.md L1.4). -/
theorem test_scenario_d : trap (vm 63 [0xFF]) = raised (vm 63 []) .badInstruction := by decide
theorem test_VA17_span : trap (vm 59 [0x32, 0, 0, 0, 0]) = raised (vm 59 []) .badAccess := by decide

/-- V-R1, V-R4 and V-R5: rounding, and the two refusals. -/
theorem test_create : State.create OpcodeMap.default IntMap.default 1021 509 =
      some (State.construct ⟨1024, 512, OpcodeMap.default, IntMap.default⟩) ∧
    State.create OpcodeMap.default IntMap.default 64 68 = none ∧
    State.create OpcodeMap.default IntMap.default (2 ^ 31) 0 = none := by decide

/-- V-R7: a stopped core takes no step. -/
theorem test_stopped : after { vm 0 [0x42] with run := .stoppedOk } (fun t => t.pc) = none := by decide

/-! ### Witnesses: the hypotheses of each obligation that has any, met together -/

/-- The invariant of a state that can be evaluated. -/
def InvData (s : State) : Prop :=
  s.cfg.wf ∧ s.cfg.stackLimit ≤ s.sp ∧ s.sp ≤ s.cfg.memSize ∧ s.sp % 4 = 0 ∧ s.pc < 2 ^ 32 ∧ s.mem.wf ∧
    s.mem.within s.cfg.memSize ∧ (s.faults.count = if s.run = .stoppedFault then 1 else 0) ∧ s.out = []

/-- With nothing sent yet, those parts are the invariant. -/
theorem inv_of_data {s : State} (h : InvData s) : s.Inv := by
  obtain ⟨h1, h2, h3, h4, h5, h6, h7, h8, h9⟩ := h
  exact ⟨h1, h2, h3, h4, h5, h6, h7, h8, by simp [h9]⟩

/-- A state with NOP, PUSH R1 and HALT in memory meets the invariant. -/
theorem demo_inv : (vm 0 [0x42, 0x50, 0, 0x40]).Inv := inv_of_data (by unfold InvData; decide)

/-- A state that has stopped with one fault flag set meets the invariant. -/
theorem demo_inv_stopped : ((vm 0 [0xFF]).raise .badInstruction).Inv := inv_of_data (by unfold InvData; decide)

theorem witness_RegistersZeroUntilWritten : ∃ (is : List Instr) (t : State),
    State.execAll is (State.construct cfg64) = some t ∧ is ≠ [] ∧ ∀ i ∈ is, i.writesReg .r1 = false :=
  ⟨[.const 1 5, .push 1, .cmp 0 1], _, rfl, by decide, by decide⟩

theorem witness_MemoryZeroThenImage : (List.replicate 64 (0x42 : Byte)).length ≤ cfg64.memSize := by decide

/-- Both clauses, the accepted one at the largest size too. -/
theorem witness_CreateRoundsOrRefuses : OpcodeMap.default.wf ∧ IntMap.default.wf ∧
    (1024 % 4 = 0 ∧ 1021 ≤ 1024 ∧ 1024 < 1021 + 4 ∧ 512 % 4 = 0 ∧ 509 ≤ 512 ∧ 512 < 509 + 4 ∧
      1024 ≤ 2 ^ 31 - 4 ∧ 512 ≤ 1024) ∧
    ((2 ^ 31 - 4) % 4 = 0 ∧ 2 ^ 31 - 7 ≤ 2 ^ 31 - 4 ∧ 2 ^ 31 - 4 < 2 ^ 31 - 7 + 4) ∧
    (2 ^ 31 % 4 = 0 ∧ 2 ^ 31 - 3 ≤ 2 ^ 31 ∧ 2 ^ 31 < 2 ^ 31 - 3 + 4 ∧ 2 ^ 31 - 4 < 2 ^ 31) ∧
    (64 % 4 = 0 ∧ 68 % 4 = 0 ∧ 65 ≤ 68 ∧ 68 < 65 + 4 ∧ 64 < 68) := by decide

/-- Each clause at the edge of memory. -/
theorem witness_HostWritesKeepInv : ∃ s : State, s.Inv ∧ s.cfg.memSize < (List.replicate 65 (1 : Byte)).length ∧
    (∃ t, s.loadImage (List.replicate 64 1) = some t) ∧ (∃ t, s.hostWriteByte 63 7 = some t) ∧
    ∃ t, s.hostWriteWord 60 0x01020304 = some t :=
  ⟨_, demo_inv, by decide, ⟨_, rfl⟩, ⟨_, rfl⟩, ⟨_, rfl⟩⟩

theorem witness_StepKeepsInv : ∃ s t : State, s.Inv ∧ step s = .next t := ⟨_, _, demo_inv, rfl⟩

/-- A run that ends cleanly, and one that ends in a fault. -/
theorem witness_RunKeepsInvAndCleanEndHasNoFlag :
    (∃ s : State, s.Inv ∧ (State.runFor 3 s).run = .stoppedOk) ∧
    ∃ s : State, s.Inv ∧ (State.runFor 3 s).run = .stoppedFault :=
  ⟨⟨_, demo_inv, by decide⟩, ⟨_, demo_inv_stopped, by decide⟩⟩

theorem witness_DecodeOfEncode : OpcodeMap.default.wf := by decide

theorem witness_DecodedBytesAreTheEncoding :
    ∃ i rest, decode OpcodeMap.default [0x50, 0x09, 0x40] = .ok (i, rest) := ⟨_, _, rfl⟩

/-- The shortest operand bytes allowed, for an unassigned and for an assigned opcode. -/
theorem witness_DecodeIsTotal : 5 ≤ ([0, 0, 0, 0, 0] : List Byte).length ∧
    OpcodeMap.default.lookup 0x55 = none ∧ OpcodeMap.default.lookup 0x54 = some .lsp := by decide

theorem witness_LengthFromOpcodeByte : ∃ i i' rest rest', decode OpcodeMap.default (0x50 :: [1]) = .ok (i, rest) ∧
    decode OpcodeMap.default (0x50 :: [9, 9]) = .ok (i', rest') := ⟨_, _, _, _, rfl, rfl⟩

theorem witness_StoppedCoreTakesNoStep : (vm 0 []).run = .running ∧
    ({ vm 0 [] with run := .stoppedOk } : State).run ≠ .running ∧
    ((vm 0 []).raise .badAccess).run ≠ .running := by decide

theorem witness_StepRunsTheDecodedInstruction : ∃ i rest, (vm 0 [0x50, 0]).run = .running ∧
    decode cfg64.opcodes (vm 0 [0x50, 0]).window = .ok (i, rest) := ⟨_, _, rfl, rfl⟩

/-- PUSH R3 in the last two bytes of memory. -/
theorem witness_InstructionInMemoryRuns : (vm 62 [0x50, 2]).run = .running ∧ cfg64.opcodes.wf ∧
    62 + (encode cfg64.opcodes (.push 2)).length ≤ cfg64.memSize ∧
    ∀ (k : Nat) (h : k < (encode cfg64.opcodes (.push 2)).length),
      (vm 62 [0x50, 2]).mem.read (62 + k) = (encode cfg64.opcodes (.push 2))[k] := by decide

/-- The first address outside memory, as `pc` and as a returned address. -/
theorem witness_PcOutsideMemoryFaults : ((vm 64 []).run = .running ∧ cfg64.memSize ≤ (vm 64 []).pc) ∧
    ∃ s : State, s.run = .running ∧ s.sp + 4 ≤ s.cfg.memSize ∧ s.cfg.memSize ≤ (s.mem.readWord s.sp).toNat :=
  ⟨by decide, withSp (put (vm 0 []) 60 [64]) 60, by decide⟩

/-- Both clauses in the last byte of memory. -/
theorem witness_UnassignedOpcodeFaults :
    ((vm 63 [0xFF]).run = .running ∧ (vm 63 [0xFF]).pc < cfg64.memSize ∧
      cfg64.opcodes.lookup ((vm 63 [0xFF]).mem.read 63) = none) ∧
    (vm 63 [0x42]).run = .running ∧ cfg64.opcodes.lookup ((vm 63 [0x42]).mem.read 63) = some .nop ∧
      63 + Mnemonic.nop.length ≤ cfg64.memSize := by decide

/-- CONST one byte short. -/
theorem witness_SpanPastMemoryFaults : (vm 59 [0x32]).run = .running ∧ (vm 59 [0x32]).pc < cfg64.memSize ∧
    cfg64.opcodes.lookup ((vm 59 [0x32]).mem.read 59) = some .const ∧ cfg64.memSize < 59 + Mnemonic.const.length := by
  decide

/-- A raise in the fetch, in validation and in the execute phase. -/
theorem witness_RaisingStepWritesOnlyFaultsAndRun :
    (∃ t, step (vm 0 [0xFF]) = .next t ∧ t.run = .stoppedFault) ∧
    (∃ t, step (vm 0 [0x50, 4]) = .next t ∧ t.run = .stoppedFault) ∧
    ∃ t, step (vm 0 [0x52, 0]) = .next t ∧ t.run = .stoppedFault := ⟨⟨_, rfl, rfl⟩, ⟨_, rfl, rfl⟩, ⟨_, rfl, rfl⟩⟩

/-- Each check at the first value it refuses. -/
theorem witness_OperandChecksInOrder : (Instr.store 4 0xFFFFFFFF).regsOk = false ∧
    ((Instr.int 3).regsOk = true ∧ (Instr.int 3).intnoOk cfg64.ints = false) ∧
    ((Instr.load 3 61).regsOk = true ∧ (Instr.load 3 61).intnoOk cfg64.ints = true ∧
      (Instr.load 3 61).addrOk cfg64.memSize = false) ∧
    (Instr.call 64).regsOk = true ∧ (Instr.call 64).intnoOk cfg64.ints = true ∧
      (Instr.call 64).addrOk cfg64.memSize = false := by decide

/-- The smallest divisors in size, and the one overflowing pair. -/
theorem witness_DivTruncatesTowardZero : (withRegs (vm 0 []) 1 7 0 0).reg .r1 ≠ 0 ∧
    (withRegs (vm 0 []) (-1) 0x80000000 0 0).reg .r1 ≠ 0 ∧
    ((withRegs (vm 0 []) (-1) 0x80000000 0 0).reg .r2).toInt = -2 ^ 31 := by decide

theorem witness_ModLeavesTheRemainder : (withRegs (vm 0 []) (-2) 7 0 0).reg .r1 ≠ 0 := by decide

theorem witness_ZeroDivisorFaults : (withRegs (vm 0 []) 0 7 0 0).reg .r1 = 0 := by decide

/-- An instruction of the family that completes, and one that raises. -/
theorem witness_ArithmeticTouchesOnlyRegistersAndPc :
    (Instr.mul 0 1).mnemonic ∈ [Mnemonic.const, .add, .neg, .mul, .div, .mod] ∧
    (Instr.div 0 1).mnemonic ∈ [Mnemonic.const, .add, .neg, .mul, .div, .mod] ∧
    (∃ t, exec (.mul 0 1) (vm 0 []) = .next t ∧ t.run ≠ .stoppedFault) ∧
    ∃ t, exec (.div 0 1) (vm 0 []) = .next t :=
  ⟨by decide, by decide, ⟨_, rfl, by decide⟩, ⟨_, rfl⟩⟩

theorem witness_BranchesFollowTheComparison : (63 : Word).toNat < (vm 0 []).cfg.memSize := by decide

/-- Exactly 4 free stack bytes. -/
theorem witness_CallPushesTheReturnAddress : (63 : Word).toNat < cfg64.memSize ∧
    cfg64.stackLimit + 4 ≤ (withSp (vm 13 []) 36).sp ∧ (withSp (vm 13 []) 36).sp ≤ cfg64.memSize := by decide

theorem witness_RetPopsTheProgramCounter : (withSp (vm 5 []) 60).sp + 4 ≤ cfg64.memSize := by decide

/-- The callee's state is the state the CALL leaves. -/
theorem witness_CallThenRetReturns : ∃ t u : State, exec (.call 40) (vm 13 []) = .next t ∧ t.run ≠ .stoppedFault ∧
    (vm 13 []).pc + 5 < 2 ^ 32 ∧ u.cfg = t.cfg ∧ u.sp = t.sp ∧ u.mem.readWord u.sp = t.mem.readWord t.sp :=
  ⟨_, _, rfl, by decide, by decide, rfl, rfl, rfl⟩

theorem witness_LoadReadsTheWord : (60 : Word).toNat + 4 ≤ (vm 0 []).cfg.memSize := by decide

theorem witness_StoreWritesTheWord : (60 : Word).toNat + 4 ≤ (vm 0 []).cfg.memSize := by decide

/-- STORE over the next instruction, with PUSH R3 in the low half of the register. -/
theorem witness_StoreToCodeIsFetched : ∃ (s : State) (tail : List Byte), s.run = .running ∧ s.cfg.opcodes.wf ∧
    (60 : Word).toNat = s.pc + 6 ∧ (60 : Word).toNat + 4 ≤ s.cfg.memSize ∧
    wordBytes (s.reg .r1) = encode s.cfg.opcodes (.push 2) ++ tail :=
  ⟨withRegs (vm 54 []) 0x0250 0 0 0, [0, 0], by decide⟩

/-- The least stack pointer with headroom. -/
theorem witness_PushWritesBelowSp : cfg64.stackLimit + 4 < (withSp (vm 0 []) 37).sp ∧
    (withSp (vm 0 []) 37).sp ≤ cfg64.memSize := by decide

theorem witness_PopReadsAtSp : (withSp (vm 0 []) 60).sp + 4 ≤ cfg64.memSize := by decide

theorem witness_PushThenPopCopies : ∃ t, exec (.push 0) (vm 0 []) = .next t ∧ t.run ≠ .stoppedFault :=
  ⟨_, rfl, by decide⟩

/-- The PUSH that completes and, with the stack pointer at 36, one that does not. -/
theorem witness_PushNeedsEightFreeBytes :
    (∃ s t : State, s.Inv ∧ s.run = .running ∧ exec (.push 0) s = .next t ∧ t.run = .running) ∧
    ∃ s t : State, s.Inv ∧ s.run = .running ∧ exec (.push 0) s = .next t ∧ t.run ≠ .running :=
  ⟨⟨_, _, demo_inv, rfl, rfl, rfl⟩,
    ⟨withSp (vm 0 []) 36, _, inv_of_data (by unfold InvData; decide), rfl, rfl, by decide⟩⟩

theorem witness_PushAllWritesTheFrame : cfg64.stackLimit + 16 < (withSp (vm 0 []) 52).sp ∧
    (withSp (vm 0 []) 52).sp ≤ cfg64.memSize := by decide

theorem witness_PopAllReadsTheFrame : (withSp (vm 0 []) 48).sp + 16 ≤ cfg64.memSize := by decide

theorem witness_PushAllThenPopAllRestores : ∃ t u : State, exec .pushAll (vm 0 []) = .next t ∧
    t.run ≠ .stoppedFault ∧ u.cfg = t.cfg ∧ u.sp = t.sp ∧ ∀ k < 16, u.mem.read (u.sp + k) = t.mem.read (t.sp + k) :=
  ⟨_, _, rfl, by decide, rfl, rfl, fun _ _ => rfl⟩

/-- A stack pointer at which all four complete, and one at which the last does not. -/
theorem witness_PushAllIsFourPushes : (vm 0 []).run = .running ∧
    (State.execAll [.push 0, .push 1, .push 2, .push 3] (withSp (vm 0 []) 52) ≠ none) ∧
    State.execAll [.push 0, .push 1, .push 2, .push 3] (withSp (vm 0 []) 48) = none := by decide

/-- Each clause at the last value that traps. -/
theorem witness_StackBoundsTrap : (withSp (vm 0 []) 36).sp ≤ cfg64.stackLimit + 4 ∧
    (withSp (vm 0 []) 48).sp ≤ cfg64.stackLimit + 16 ∧
    ((63 : Word).toNat < cfg64.memSize ∧ (withSp (vm 0 []) 35).sp < cfg64.stackLimit + 4) ∧
    cfg64.memSize < (withSp (vm 0 []) 61).sp + 4 ∧ cfg64.memSize < (withSp (vm 0 []) 49).sp + 16 := by decide

theorem witness_PrintIntegerSendsTheTopWord : (withSp (vm 0 []) 60).sp + 4 ≤ cfg64.memSize := by decide

/-- "Hi" at 56, and the empty string in the last byte of memory. -/
theorem witness_PrintStringSendsTheString :
    (∃ (s : State) (bs : List Byte), s.cfg.ints.wf ∧ s.sp + 4 ≤ s.cfg.memSize ∧ bs = [0x48, 0x69] ∧
      (s.mem.readWord s.sp).toNat + bs.length < s.cfg.memSize ∧
      (∀ (k : Nat) (h : k < bs.length), s.mem.read ((s.mem.readWord s.sp).toNat + k) = bs[k] ∧ bs[k] ≠ 0) ∧
      s.mem.read ((s.mem.readWord s.sp).toNat + bs.length) = 0) ∧
    ∃ s : State, s.cfg.ints.wf ∧ s.sp + 4 ≤ s.cfg.memSize ∧ (s.mem.readWord s.sp).toNat = 63 ∧
      s.mem.read (s.mem.readWord s.sp).toNat = 0 :=
  ⟨⟨withSp (put (put (vm 0 []) 60 [56]) 56 [0x48, 0x69]) 60, [0x48, 0x69], by decide⟩,
    ⟨withSp (put (vm 0 []) 60 [63]) 60, by decide⟩⟩

/-- A byte string that runs into the end of memory, and an address that is the first outside it. -/
theorem witness_UnterminatedStringFaults :
    (∃ s : State, s.cfg.ints.wf ∧ s.sp + 4 ≤ s.cfg.memSize ∧ (s.mem.readWord s.sp).toNat = 63 ∧
      ∀ k, (s.mem.readWord s.sp).toNat ≤ k → k < s.cfg.memSize → s.mem.read k ≠ 0) ∧
    ∃ s : State, s.cfg.ints.wf ∧ s.sp + 4 ≤ s.cfg.memSize ∧ (s.mem.readWord s.sp).toNat = 64 ∧
      ∀ k, (s.mem.readWord s.sp).toNat ≤ k → k < s.cfg.memSize → s.mem.read k ≠ 0 := by
  refine ⟨⟨withSp (put (vm 0 []) 56 [63, 0, 0, 0, 0, 0, 0, 0xFF]) 56, by decide, by decide, by decide, ?_⟩,
    ⟨withSp (put (vm 0 []) 56 [64]) 56, by decide, by decide, by decide, ?_⟩⟩
  · intro k h1 h2
    have hk : k = 63 := by
      have : 63 ≤ k := h1
      have : k < 64 := h2
      omega
    subst hk
    decide
  · intro k h1 h2
    have : 64 ≤ k := h1
    have : k < 64 := h2
    omega

/-- A service that completes, and an instruction other than INT. -/
theorem witness_IntTouchesOnlySpPcAndOut :
    (∃ t, exec (.int 1) (withSp (vm 0 []) 60) = .next t ∧ t.run ≠ .stoppedFault) ∧
    (∃ t, exec (.push 0) (vm 0 []) = .next t) ∧ (Instr.push 0).mnemonic ≠ .int :=
  ⟨⟨_, rfl, by decide⟩, ⟨_, rfl⟩, by decide⟩

theorem witness_RegistersWrittenOnlyByTheirWriters :
    ∃ t, exec (.const 0 5) (vm 0 []) = .next t ∧ (Instr.const 0 5).writesReg .r2 = false := ⟨_, rfl, by decide⟩

/-- An address just below and one just above the stored span. -/
theorem witness_MemoryWrittenOnlyInTheStoredSpan : ∃ t, exec (.push 0) (withSp (vm 0 []) 60) = .next t ∧
    55 < ((Instr.push 0).storeSpan (withSp (vm 0 []) 60)).1 ∧
    ((Instr.push 0).storeSpan (withSp (vm 0 []) 60)).1 + ((Instr.push 0).storeSpan (withSp (vm 0 []) 60)).2 ≤ 60 :=
  ⟨_, rfl, by decide⟩

theorem witness_SpMovesOnlyByStackInstructions : ∃ t, exec .pushAll (vm 0 []) = .next t ∧ t.run ≠ .stoppedFault :=
  ⟨_, rfl, by decide⟩

theorem witness_PcFallsThroughByTheLength : ∃ t, exec (.store 0 60) (vm 0 []) = .next t ∧ t.run ≠ .stoppedFault ∧
    (Instr.store 0 60).fallsThrough = true := ⟨_, rfl, by decide⟩

theorem witness_CmpWrittenOnlyByCmp : (∃ t, exec (.push 0) (vm 0 []) = .next t ∧ (Instr.push 0).mnemonic ≠ .cmp) ∧
    ∃ t, exec (.cmp 0 0) (vm 0 []) = .next t ∧ (Instr.cmp 0 0).mnemonic = .cmp ∧ t.run ≠ .stoppedFault :=
  ⟨⟨_, rfl, by decide⟩, ⟨_, rfl, by decide⟩⟩

/-- A step that sets a flag, and a running state, outside the invariant, whose flag is already set. -/
theorem witness_FaultFlagsAreSticky :
    (∃ t, step (vm 0 [0xFF]) = .next t ∧ (vm 0 [0xFF]).faults.has .badInstruction = false ∧
      t.faults.has .badInstruction = true) ∧
    ∃ s t : State, step s = .next t ∧ s.faults.has .badAccess = true :=
  ⟨⟨_, rfl, by decide⟩, { vm 0 [0x42] with faults := ⟨false, true, false, false, false⟩ }, _, rfl, by decide⟩

theorem witness_ConfigurationNeverChanges : ∃ t u v w x, exec (.push 0) (vm 0 []) = .next t ∧
    step (vm 0 [0x42]) = .next u ∧ (vm 0 []).loadImage [0x40] = some v ∧ (vm 0 []).hostWriteByte 63 1 = some w ∧
    (vm 0 []).hostWriteWord 60 1 = some x := ⟨_, _, _, _, _, rfl, rfl, rfl, rfl, rfl⟩

/-- Bit 7 is the first bit above the layout. -/
theorem witness_StatusWordLayout : (7 : Nat) ≤ 7 := by decide

end Sys2Proof.Tests
end

section
/-! PROOFS. What a step can do, said once: the inversion of every meaning (`Completes`, `exec_cases`), of a step,
of a run, of a sequence of completed instructions and of the host's writes. -/

namespace Sys2Proof.Machine

variable {s t : State}

/-! ### What the shared operations answer when they succeed -/

theorem dataAddress_eq_ok {addr : Word} {a : Nat} :
    dataAddress s addr = .ok a ↔ addr.toNat + 4 ≤ s.cfg.memSize ∧ addr.toNat = a := by
  rw [dataAddress_eq]; split <;> simp [*]

theorem jumpTarget_eq_ok {addr : Word} {a : Nat} :
    jumpTarget s addr = .ok a ↔ addr.toNat < s.cfg.memSize ∧ addr.toNat = a := by
  rw [jumpTarget_eq]; split <;> simp [*]

theorem State.loadWord_eq_ok {a : Nat} {v : Word} :
    s.loadWord a = .ok v ↔ a + 4 ≤ s.cfg.memSize ∧ s.mem.readWord a = v := by
  rw [State.loadWord_eq]; split <;> simp [*]

theorem State.storeWord_eq_ok {a : Nat} {v : Word} :
    s.storeWord a v = .ok t ↔ a + 4 ≤ s.cfg.memSize ∧ { s with mem := s.mem.writeWord a v } = t := by
  rw [State.storeWord_eq]; split <;> simp [*]

theorem State.pushWord_eq_ok {v : Word} :
    s.pushWord v = .ok t ↔ s.sp - 4 + 4 ≤ s.cfg.memSize ∧
      { s with mem := s.mem.writeWord (s.sp - 4) v, sp := s.sp - 4 } = t := by
  rw [State.pushWord_eq]; split <;> simp [*]

theorem State.topWord_eq_ok {v : Word} :
    s.topWord = .ok v ↔ s.sp + 4 ≤ s.cfg.memSize ∧ s.mem.readWord s.sp = v := by
  rw [State.topWord_eq]; split <;> simp [*]

theorem serviceOperand_eq_printInteger {m : IntMap} {n : Byte} :
    serviceOperand m n = .ok .printInteger ↔ n = m.printInteger := by
  by_cases h1 : n = m.printInteger
  · simp [serviceOperand, h1]
  · rw [serviceOperand, if_neg h1]; split <;> simp [h1]

theorem serviceOperand_eq_printString {m : IntMap} {n : Byte} :
    serviceOperand m n = .ok .printString ↔ n ≠ m.printInteger ∧ n = m.printString := by
  by_cases h1 : n = m.printInteger
  · simp [serviceOperand, h1]
  · by_cases h2 : n = m.printString <;> simp [serviceOperand, h1, h2]

/-! ### The inversion of a meaning -/

/-- `Completes i s t`: the rule of `i` passes all its checks on `s` and leaves `t` (40_dispatch.md R84). One
constructor per rule, its premises the checks and the reads the rule makes. -/
inductive Completes : Instr → State → State → Prop
  | const (s : State) (r : Reg) (imm : Word) :
      Completes (.const r.byte imm) s ((s.setReg r imm).advance 6)
  | add (s : State) (a d : Reg) :
      Completes (.add a.byte d.byte) s ((s.setReg d (w32 (s32 (s.reg d) + s32 (s.reg a)))).advance 3)
  | neg (s : State) (r : Reg) :
      Completes (.neg r.byte) s ((s.setReg r (w32 (0 - s32 (s.reg r)))).advance 2)
  | mul (s : State) (a d : Reg) :
      Completes (.mul a.byte d.byte) s ((s.setReg d (w32 (s32 (s.reg d) * s32 (s.reg a)))).advance 3)
  | div (s : State) (a d : Reg) (nonzero : s32 (s.reg a) ≠ 0) :
      Completes (.div a.byte d.byte) s ((s.setReg d (w32 (quotient (s32 (s.reg d)) (s32 (s.reg a))))).advance 3)
  | mod (s : State) (a d : Reg) (nonzero : s32 (s.reg a) ≠ 0) :
      Completes (.mod a.byte d.byte) s ((s.setReg d (w32 (remainder (s32 (s.reg d)) (s32 (s.reg a))))).advance 3)
  | cmp (s : State) (a b : Reg) :
      Completes (.cmp a.byte b.byte) s { s.advance 3 with cmp := compareSigned (s.reg a) (s.reg b) }
  | ja (s : State) (addr : Word) (target : addr.toNat < s.cfg.memSize) :
      Completes (.ja addr) s (s.branchOn .above addr.toNat)
  | je (s : State) (addr : Word) (target : addr.toNat < s.cfg.memSize) :
      Completes (.je addr) s (s.branchOn .equal addr.toNat)
  | jb (s : State) (addr : Word) (target : addr.toNat < s.cfg.memSize) :
      Completes (.jb addr) s (s.branchOn .below addr.toNat)
  | jmp (s : State) (addr : Word) (target : addr.toNat < s.cfg.memSize) :
      Completes (.jmp addr) s { s with pc := addr.toNat }
  | call (s : State) (addr : Word) (target : addr.toNat < s.cfg.memSize)
      (room : s.cfg.stackLimit + 4 ≤ s.sp) (fits : s.sp - 4 + 4 ≤ s.cfg.memSize) :
      Completes (.call addr) s
        { s with mem := s.mem.writeWord (s.sp - 4) (w32 ((s.pc + 5 : Nat) : Int)), sp := s.sp - 4, pc := addr.toNat }
  | ret (s : State) (top : s.sp + 4 ≤ s.cfg.memSize) :
      Completes .ret s { s.dropWord with pc := u32 (s.mem.readWord s.sp) }
  | load (s : State) (r : Reg) (addr : Word) (inside : addr.toNat + 4 ≤ s.cfg.memSize) :
      Completes (.load r.byte addr) s ((s.setReg r (s.mem.readWord addr.toNat)).advance 6)
  | store (s : State) (r : Reg) (addr : Word) (inside : addr.toNat + 4 ≤ s.cfg.memSize) :
      Completes (.store r.byte addr) s
        (State.advance { s with mem := s.mem.writeWord addr.toNat (s.reg r) } 6)
  | push (s : State) (r : Reg) (room : s.cfg.stackLimit + 4 < s.sp) (fits : s.sp - 4 + 4 ≤ s.cfg.memSize) :
      Completes (.push r.byte) s
        (State.advance { s with mem := s.mem.writeWord (s.sp - 4) (s.reg r), sp := s.sp - 4 } 2)
  | pop (s : State) (r : Reg) (top : s.sp + 4 ≤ s.cfg.memSize) :
      Completes (.pop r.byte) s ((s.dropWord.setReg r (s.mem.readWord s.sp)).advance 2)
  | pushAll (s : State) (room : s.cfg.stackLimit + 16 < s.sp) (fits : s.sp - 4 + 4 ≤ s.cfg.memSize) :
      Completes .pushAll s
        { s.advance 1 with
          sp := s.sp - 16
          mem := (((s.mem.writeWord (s.sp - 4) (s.reg .r1)).writeWord (s.sp - 8) (s.reg .r2)).writeWord
            (s.sp - 12) (s.reg .r3)).writeWord (s.sp - 16) (s.reg .r4) }
  | popAll (s : State) (top : s.sp + 16 ≤ s.cfg.memSize) :
      Completes .popAll s
        { s.advance 1 with
          sp := s.sp + 16
          regs := ⟨s.mem.readWord (s.sp + 12), s.mem.readWord (s.sp + 8), s.mem.readWord (s.sp + 4),
            s.mem.readWord s.sp⟩ }
  | lsp (s : State) (r : Reg) :
      Completes (.lsp r.byte) s ((s.setReg r (w32 (s.sp : Int))).advance 2)
  | printInteger (s : State) (n : Byte) (service : n = s.cfg.ints.printInteger) (top : s.sp + 4 ≤ s.cfg.memSize) :
      Completes (.int n) s ((s.dropWord.emit (.int (s.mem.readWord s.sp))).advance 2)
  | printString (s : State) (n : Byte) (bs : List Byte)
      (service : n ≠ s.cfg.ints.printInteger ∧ n = s.cfg.ints.printString)
      (top : s.sp + 4 ≤ s.cfg.memSize) (string : s.stringAt (u32 (s.mem.readWord s.sp)) = .ok bs) :
      Completes (.int n) s ((s.dropWord.emit (.bytes bs)).advance 2)
  | halt (s : State) : Completes .halt s { s.advance 1 with run := .stoppedOk }
  | nop (s : State) : Completes .nop s (s.advance 1)

/-- A meaning's end: what holds where its rule succeeds holds, or the fault was taken. -/
theorem complete_cases {P : Prop} {r : Except FaultKind State} (h : complete s r = .next t)
    (hok : r = .ok t → P) : P ∨ ∃ f, t = s.raise f := by
  obtain hr | ⟨f, -, rfl⟩ := complete_eq_next.mp h
  · exact .inl (hok hr)
  · exact .inr ⟨f, rfl⟩

/-- Everything an instruction can answer: its completed rule, or a fault taken on the state it began with
(40_dispatch.md R84). -/
theorem exec_cases {i : Instr} (h : exec i s = .next t) : Completes i s t ∨ ∃ f, t = s.raise f := by
  cases i
  case halt => cases h; exact .inl (.halt _)
  case nop => cases h; exact .inl (.nop _)
  all_goals
    refine complete_cases h fun hok => ?_
    simp only [bind_eq_ok, regOperand_eq_ok, check_eq_ok, dataAddress_eq_ok, jumpTarget_eq_ok, State.loadWord_eq_ok,
      State.storeWord_eq_ok, State.pushWord_eq_ok, State.topWord_eq_ok, pure_eq_ok, Except.ok.injEq] at hok
  case const => obtain ⟨r, rfl, rfl⟩ := hok; exact .const ..
  case add => obtain ⟨a, rfl, d, rfl, rfl⟩ := hok; exact .add ..
  case neg => obtain ⟨r, rfl, rfl⟩ := hok; exact .neg ..
  case mul => obtain ⟨a, rfl, d, rfl, rfl⟩ := hok; exact .mul ..
  case div => obtain ⟨a, rfl, d, rfl, -, nonzero, rfl⟩ := hok; exact .div _ _ _ nonzero
  case mod => obtain ⟨a, rfl, d, rfl, -, nonzero, rfl⟩ := hok; exact .mod _ _ _ nonzero
  case cmp => obtain ⟨a, rfl, b, rfl, rfl⟩ := hok; exact .cmp ..
  case ja => obtain ⟨-, ⟨target, rfl⟩, rfl⟩ := hok; exact .ja _ _ target
  case je => obtain ⟨-, ⟨target, rfl⟩, rfl⟩ := hok; exact .je _ _ target
  case jb => obtain ⟨-, ⟨target, rfl⟩, rfl⟩ := hok; exact .jb _ _ target
  case jmp => obtain ⟨-, ⟨target, rfl⟩, rfl⟩ := hok; exact .jmp _ _ target
  case call =>
    obtain ⟨-, ⟨target, rfl⟩, -, room, -, ⟨fits, rfl⟩, rfl⟩ := hok
    exact .call _ _ target room fits
  case ret => obtain ⟨-, ⟨top, rfl⟩, rfl⟩ := hok; exact .ret _ top
  case load => obtain ⟨r, rfl, -, ⟨inside, rfl⟩, -, ⟨-, rfl⟩, rfl⟩ := hok; exact .load _ _ _ inside
  case store => obtain ⟨r, rfl, -, ⟨inside, rfl⟩, -, ⟨-, rfl⟩, rfl⟩ := hok; exact .store _ _ _ inside
  case push => obtain ⟨r, rfl, -, room, -, ⟨fits, rfl⟩, rfl⟩ := hok; exact .push _ _ room fits
  case pop => obtain ⟨r, rfl, -, ⟨top, rfl⟩, rfl⟩ := hok; exact .pop _ _ top
  case pushAll =>
    obtain ⟨-, room, -, ⟨fits, rfl⟩, -, ⟨-, rfl⟩, -, ⟨-, rfl⟩, -, ⟨-, rfl⟩, rfl⟩ := hok
    exact .pushAll _ room fits
  case popAll =>
    obtain ⟨-, top, -, ⟨-, rfl⟩, -, ⟨-, rfl⟩, -, ⟨-, rfl⟩, -, ⟨-, rfl⟩, rfl⟩ := hok
    exact .popAll _ top
  case lsp => obtain ⟨r, rfl, rfl⟩ := hok; exact .lsp ..
  case int =>
    obtain ⟨service, hn, hok⟩ := hok
    cases service with
    | printInteger =>
      simp only [State.printInteger, bind_eq_ok, State.topWord_eq_ok, pure_eq_ok, Except.ok.injEq] at hok
      obtain ⟨-, ⟨top, rfl⟩, rfl⟩ := hok
      exact .printInteger _ _ (serviceOperand_eq_printInteger.mp hn) top
    | printString =>
      simp only [State.printString, bind_eq_ok, State.topWord_eq_ok, pure_eq_ok, Except.ok.injEq] at hok
      obtain ⟨-, ⟨top, rfl⟩, bs, string, rfl⟩ := hok
      have service := serviceOperand_eq_printString.mp hn
      exact .printString _ _ bs service top string

/-! ### The inversion of a step, and of runs and sequences -/

/-- Everything a step can answer as a next state: the fetched instruction's, or the fetch's fault taken. -/
theorem step_eq_next : step s = .next t ↔ s.run = .running ∧
    ((∃ i, s.fetch = .ok i ∧ exec i s = .next t) ∨ ∃ f, s.fetch = .error f ∧ s.raise f = t) := by
  unfold step
  cases s.run with
  | running => cases s.fetch <;> simp
  | stoppedOk => simp
  | stoppedFault => simp

/-- A property that every step keeps holds after a run of any budget. -/
theorem State.runFor_induction (P : State → Prop) (hstep : ∀ s t, P s → step s = .next t → P t) (n : Nat)
    (hs : P s) : P (State.runFor n s) := by
  induction n generalizing s with
  | zero => exact hs
  | succ n ih =>
    unfold State.runFor
    split
    · exact ih (hstep _ _ hs ‹_›)
    · exact hs
    · exact hs

theorem State.execAll_cons_eq_some {i : Instr} {is : List Instr} : State.execAll (i :: is) s = some t ↔
    ∃ u, exec i s = .next u ∧ u.run = .running ∧ State.execAll is u = some t := by
  rw [State.execAll]
  cases exec i s <;> simp

/-! ### The host's writes -/

theorem State.loadImage_eq_some {image : List Byte} : s.loadImage image = some t ↔
    image.length ≤ s.cfg.memSize ∧ { s with mem := s.mem.writeBytes s.cfg.memSize 0 image } = t := by
  simp [State.loadImage]

theorem State.hostWriteByte_eq_some {a : Nat} {b : Byte} : s.hostWriteByte a b = some t ↔
    a < s.cfg.memSize ∧ { s with mem := s.mem.write a b } = t := by
  simp [State.hostWriteByte]

theorem State.hostWriteWord_eq_some {a : Nat} {v : Word} : s.hostWriteWord a v = some t ↔
    a + 4 ≤ s.cfg.memSize ∧ { s with mem := s.mem.writeWord a v } = t := by
  simp [State.hostWriteWord]

end Sys2Proof.Machine
end

section
/-! PROOFS. The statements of 10_state.md: registers until they are written (O2) and the fixed configuration (O59). -/

namespace Sys2Proof.Machine

variable {i : Instr} {s t : State}

/-! ### The configuration -/

/-- Every rule is built from updates of other fields than the configuration. -/
theorem Completes.cfg (h : Completes i s t) : t.cfg = s.cfg := by
  cases h
  case ja | je | jb => exact State.branchOn_cfg ..
  all_goals rfl

theorem exec_cfg (h : exec i s = .next t) : t.cfg = s.cfg := by
  obtain h | ⟨f, rfl⟩ := exec_cases h
  · exact h.cfg
  · exact State.raise_cfg s f

theorem step_cfg (h : step s = .next t) : t.cfg = s.cfg := by
  obtain ⟨-, ⟨i, -, h⟩ | ⟨f, -, rfl⟩⟩ := step_eq_next.mp h
  · exact exec_cfg h
  · exact State.raise_cfg s f

theorem State.runFor_cfg (n : Nat) (s : State) : (State.runFor n s).cfg = s.cfg :=
  State.runFor_induction (fun u => u.cfg = s.cfg) (fun _ _ hu h => (step_cfg h).trans hu) n rfl

/-- Settles O59: no rule, no fault and no host write has `cfg` among the fields it writes. -/
theorem configurationNeverChanges : Obligations.ConfigurationNeverChanges := by
  intro s
  refine ⟨fun _ _ => exec_cfg, fun _ => step_cfg, fun n => State.runFor_cfg n s, ?_, ?_, ?_⟩
  · intro image t h
    obtain ⟨-, rfl⟩ := State.loadImage_eq_some.mp h
    rfl
  · intro a b t h
    obtain ⟨-, rfl⟩ := State.hostWriteByte_eq_some.mp h
    rfl
  · intro a v t h
    obtain ⟨-, rfl⟩ := State.hostWriteWord_eq_some.mp h
    rfl

/-! ### Registers until they are written -/

/-- Where two registers' index bytes differ, a write to one leaves the other. -/
theorem State.reg_setReg_of_byte_ne (s : State) {r q : Reg} (v : Word) (h : (r.byte == q.byte) = false) :
    (s.setReg r v).reg q = s.reg q := by
  have hqr : q ≠ r := fun e => absurd (congrArg Reg.byte e.symm) (beq_eq_false_iff_ne.mp h)
  exact RegFile.get_set_of_ne s.regs v hqr

/-- A completed rule keeps every register that `writesReg` does not name. -/
theorem Completes.reg {q : Reg} (h : Completes i s t) (hq : i.writesReg q = false) : t.reg q = s.reg q := by
  cases h
  case const | add | neg | mul | div | mod | load | lsp => exact State.reg_setReg_of_byte_ne s _ hq
  case pop => exact State.reg_setReg_of_byte_ne s.dropWord _ hq
  case popAll => cases hq
  case ja | je | jb => exact congrArg (·.get q) (State.branchOn_regs ..)
  all_goals rfl

theorem exec_reg {q : Reg} (h : exec i s = .next t) (hq : i.writesReg q = false) : t.reg q = s.reg q := by
  obtain h | ⟨f, rfl⟩ := exec_cases h
  · exact h.reg hq
  · exact State.raise_reg s f q

/-- A sequence of completed instructions keeps a register that none of them may write. -/
theorem State.execAll_reg {is : List Instr} {q : Reg} (h : State.execAll is s = some t)
    (hq : ∀ i ∈ is, i.writesReg q = false) : t.reg q = s.reg q := by
  induction is generalizing s with
  | nil => cases h; rfl
  | cons i is ih =>
    obtain ⟨u, hu, -, h⟩ := State.execAll_cons_eq_some.mp h
    obtain ⟨hi, his⟩ := List.forall_mem_cons.mp hq
    exact (ih h his).trans (exec_reg hu hi)

/-- Settles O2: construction zeroes the register file, and the instructions run after it leave `r` alone. -/
theorem registersZeroUntilWritten : Obligations.RegistersZeroUntilWritten := by
  intro c r
  have hzero : (State.construct c).reg r = 0 := RegFile.get_zero r
  exact ⟨hzero, fun is t h hr => (State.execAll_reg h hr).trans hzero⟩

end Sys2Proof.Machine
end

section
/-! PROOFS. The statements of 20_memory.md: memory at construction and after the program image (O3). -/

namespace Sys2Proof.Machine

/-- Zero-initialized memory: with no cell listed, every address reads 0 (20_memory.md R36). -/
@[simp] theorem Memory.read_nil (a : Nat) : Memory.read [] a = 0 := rfl

/-- An image that fits, written over zeroed memory, reads as the image padded with zeros. -/
theorem Memory.read_writeBytes_nil {size : Nat} {image : List Byte} (hfits : image.length ≤ size) (a : Nat) :
    (Memory.writeBytes size [] 0 image).read a = image.getD a 0 := by
  rw [Memory.read_writeBytes, Memory.read_nil]
  by_cases ha : a < image.length
  · have hsize : a < size := ha.trans_le hfits
    simp [ha, hsize]
  · simp [ha]

/-- Settles O3: `loadImage` writes the image's bytes over the empty list that construction starts from. -/
theorem memoryZeroThenImage : Obligations.MemoryZeroThenImage := by
  intro c
  refine ⟨Memory.read_nil, fun image hfits => ?_⟩
  exact ⟨_, State.loadImage_eq_some.mpr ⟨hfits, rfl⟩, rfl, Memory.read_writeBytes_nil hfits⟩

end Sys2Proof.Machine
end

section
/-! PROOFS. The statements of 30_encoding.md: decoding is total (O11) and the length follows from the opcode byte
(O12). -/

namespace Sys2Proof

variable {m : OpcodeMap} {op : Byte} {bs rest : List Byte} {i : Instr}

theorem decode_of_lookup_eq_none (h : m.lookup op = none) (bs : List Byte) :
    decode m (op :: bs) = .error (.unassigned op) := by
  simp [decode, h]

/-- What decodes is an instruction of the table's mnemonic, read from its operand bytes (30_encoding.md R65, R68). -/
theorem decode_cons_eq_ok : decode m (op :: bs) = .ok (i, rest) ↔
    m.lookup op = some i.mnemonic ∧ bs = i.operandBytes ++ rest := by
  rw [decode]
  cases m.lookup op with
  | none => simp
  | some k =>
    rw [Option.some.injEq, eq_comm (a := k), ← Mnemonic.parse_eq_some]
    dsimp only
    cases k.parse bs <;> simp

/-- Five operand bytes are enough for every format, and no parser checks what they hold (30_encoding.md R68). -/
theorem Mnemonic.exists_parse_eq_some (k : Mnemonic) (h : 5 ≤ bs.length) : ∃ i rest, k.parse bs = some (i, rest) := by
  match bs, h with
  | _ :: _ :: _ :: _ :: _ :: _, _ => cases k <;> exact ⟨_, _, rfl⟩

/-- The decoded instruction's encoding begins with the byte that was looked up. -/
theorem encode_eq_cons_of_lookup (h : m.lookup op = some i.mnemonic) : encode m i = op :: i.operandBytes := by
  rw [encode, OpcodeMap.byte_of_lookup h]

theorem length_encode (m : OpcodeMap) (i : Instr) : (encode m i).length = i.mnemonic.length :=
  i.length_operandBytes

end Sys2Proof

namespace Sys2Proof.Machine

/-- Settles O11: an empty entry is answered first; an assigned one is parsed, and five bytes never fall short. -/
theorem decodeIsTotal : Obligations.DecodeIsTotal := by
  intro m op bs hlen
  refine ⟨fun hnone => decode_of_lookup_eq_none hnone bs, fun k hk => ?_⟩
  obtain ⟨i, rest, hparse⟩ := Mnemonic.exists_parse_eq_some k hlen
  obtain ⟨rfl, hbs⟩ := Mnemonic.parse_eq_some.mp hparse
  refine ⟨i, rest, decode_cons_eq_ok.mpr ⟨hk, hbs⟩, rfl, ?_⟩
  rw [encode_eq_cons_of_lookup hk, hbs, List.cons_append]

/-- Settles O12: both decodings use the one entry of the opcode byte, which fixes the mnemonic and so the length. -/
theorem lengthFromOpcodeByte : Obligations.LengthFromOpcodeByte := by
  intro m op bs bs' rest rest' i i' h h'
  obtain ⟨hk, -⟩ := decode_cons_eq_ok.mp h
  obtain ⟨hk', -⟩ := decode_cons_eq_ok.mp h'
  have hmnemonic : i.mnemonic = i'.mnemonic := Option.some.inj (hk.symm.trans hk')
  refine ⟨⟨i.mnemonic, hk, length_encode m i⟩, ?_⟩
  rw [length_encode, length_encode, hmnemonic]

end Sys2Proof.Machine
end

section
/-! PROOFS. The statements of 40_dispatch.md on steps (3) and (4): an unassigned opcode (O19) and a span past the end
of memory (O20). -/

namespace Sys2Proof

variable {m : OpcodeMap} {op : Byte} {k : Mnemonic} {bs : List Byte}

/-! ### A parser fails exactly where its format's bytes run out -/

theorem parseN_eq_none {i : Instr} : parseN i bs = none ↔ bs.length < 0 := by
  simp [parseN]

theorem parseR_eq_none {mk : Byte → Instr} : parseR mk bs = none ↔ bs.length < 1 := by
  rcases bs with _ | ⟨a, bs⟩ <;> simp [parseR]

theorem parseRR_eq_none {mk : Byte → Byte → Instr} : parseRR mk bs = none ↔ bs.length < 2 := by
  rcases bs with _ | ⟨a, _ | ⟨b, bs⟩⟩ <;> simp [parseRR]

theorem parseA_eq_none {mk : Word → Instr} : parseA mk bs = none ↔ bs.length < 4 := by
  rcases bs with _ | ⟨a0, _ | ⟨a1, _ | ⟨a2, _ | ⟨a3, bs⟩⟩⟩⟩ <;> simp [parseA]

theorem parseRI_eq_none {mk : Byte → Word → Instr} : parseRI mk bs = none ↔ bs.length < 5 := by
  rcases bs with _ | ⟨r, _ | ⟨v0, _ | ⟨v1, _ | ⟨v2, _ | ⟨v3, bs⟩⟩⟩⟩⟩ <;> simp [parseRI]

/-- With `parse_eq_some`, everything a mnemonic's parser can answer: it fails only for want of bytes
(30_encoding.md R68). -/
theorem Mnemonic.parse_eq_none : k.parse bs = none ↔ bs.length + 1 < k.length := by
  cases k <;>
    simp only [Mnemonic.parse, Mnemonic.length, parseN_eq_none, parseR_eq_none, parseRR_eq_none, parseA_eq_none,
      parseRI_eq_none] <;>
    omega

theorem decode_of_length_lt (hk : m.lookup op = some k) (hlen : bs.length + 1 < k.length) :
    decode m (op :: bs) = .error (.truncated k) := by
  simp [decode, hk, Mnemonic.parse_eq_none.mpr hlen]

theorem exists_decode_eq_ok_of_length_le (hk : m.lookup op = some k) (hlen : k.length ≤ bs.length + 1) :
    ∃ i rest, decode m (op :: bs) = .ok (i, rest) ∧ i.mnemonic = k := by
  have hsome : k.parse bs ≠ none := fun hnone => (Mnemonic.parse_eq_none.mp hnone).not_ge hlen
  obtain ⟨⟨i, rest⟩, hparse⟩ := Option.ne_none_iff_exists'.mp hsome
  obtain ⟨rfl, hbs⟩ := Mnemonic.parse_eq_some.mp hparse
  exact ⟨i, rest, decode_cons_eq_ok.mpr ⟨hk, hbs⟩, rfl⟩

end Sys2Proof

namespace Sys2Proof.Machine

variable {s : State}

/-! ### The window, the fetch and the step -/

/-- With `pc` inside memory the window begins with the opcode byte, and an instruction's span fits it exactly where it
fits memory: the window's cut at the longest instruction hides no span (40_dispatch.md R78, R80). -/
theorem State.exists_window_eq_cons (hpc : s.pc < s.cfg.memSize) : ∃ bs, s.window = s.mem.read s.pc :: bs ∧
    ∀ k : Mnemonic, k.length ≤ bs.length + 1 ↔ s.pc + k.length ≤ s.cfg.memSize := by
  obtain ⟨n, hn⟩ : ∃ n, min maxInstrLength (s.cfg.memSize - s.pc) = n + 1 :=
    Nat.exists_eq_add_one.mpr (lt_min (by decide) (Nat.sub_pos_of_lt hpc))
  refine ⟨s.mem.readBytes (s.pc + 1) n, by rw [State.window, hn, Memory.readBytes], fun k => ?_⟩
  have hk : k.length ≤ maxInstrLength := k.length_le
  rw [Memory.length_readBytes, ← hn]
  omega

theorem State.fetch_of_decode_eq_ok {i : Instr} {rest : List Byte}
    (h : decode s.cfg.opcodes s.window = .ok (i, rest)) : s.fetch = .ok i := by
  rw [State.fetch, h]

theorem State.fetch_of_decode_eq_error {e : DecodeError} (h : decode s.cfg.opcodes s.window = .error e) :
    s.fetch = .error (fetchFault e) := by
  rw [State.fetch, h]

theorem step_of_fetch_eq_ok {i : Instr} (hrun : s.run = .running) (h : s.fetch = .ok i) : step s = exec i s := by
  simp [step, hrun, h]

theorem step_of_fetch_eq_error {f : FaultKind} (hrun : s.run = .running) (h : s.fetch = .error f) :
    step s = .next (s.raise f) :=
  step_eq_next.mpr ⟨hrun, .inr ⟨f, h, rfl⟩⟩

/-! ### The statements -/

/-- Settles O19: the opcode byte alone decides that the entry is empty; where it is not, a span inside memory lies
inside the window, so the mnemonic's parser has all its bytes. -/
theorem unassignedOpcodeFaults : Obligations.UnassignedOpcodeFaults := by
  intro s hrun hpc
  obtain ⟨bs, hwindow, hfits⟩ := State.exists_window_eq_cons hpc
  refine ⟨fun hnone => ?_, fun k hk hspan => ?_⟩
  · have hdecode : decode s.cfg.opcodes s.window = .error (.unassigned (s.mem.read s.pc)) := by
      rw [hwindow, decode_of_lookup_eq_none hnone]
    exact step_of_fetch_eq_error hrun (State.fetch_of_decode_eq_error hdecode)
  · obtain ⟨i, rest, hdecode, hi⟩ := exists_decode_eq_ok_of_length_le hk ((hfits k).mpr hspan)
    rw [← hwindow] at hdecode
    exact ⟨i, hi, step_of_fetch_eq_ok hrun (State.fetch_of_decode_eq_ok hdecode)⟩

/-- Settles O20: a span past the end of memory is longer than the window, so the decode is truncated; the fault taken
for it writes none of the three fields. -/
theorem spanPastMemoryFaults : Obligations.SpanPastMemoryFaults := by
  intro s k hrun hpc hk hspan
  obtain ⟨bs, hwindow, hfits⟩ := State.exists_window_eq_cons hpc
  have hshort : bs.length + 1 < k.length := Nat.lt_of_not_ge fun hle => hspan.not_ge ((hfits k).mp hle)
  have hdecode : decode s.cfg.opcodes s.window = .error (.truncated k) := by
    rw [hwindow, decode_of_length_lt hk hshort]
  have hstep : step s = .next (s.raise .badAccess) :=
    step_of_fetch_eq_error hrun (State.fetch_of_decode_eq_error hdecode)
  exact ⟨_, hstep, rfl, State.raise_regs .., State.raise_mem .., State.raise_pc ..⟩

end Sys2Proof.Machine
end

section
/-! PROOFS. The statements of 41_arithmetic.md: what the family neither reads nor writes (O29). -/

namespace Sys2Proof

/-- CONST, ADD, NEG, MUL, DIV and MOD (41_arithmetic.md). -/
abbrev Instr.IsArithmetic (i : Instr) : Prop :=
  i.mnemonic ∈ [Mnemonic.const, .add, .neg, .mul, .div, .mod]

end Sys2Proof

namespace Sys2Proof.Machine

variable {i : Instr} {s t : State}

/-! ### What the family leaves unchanged -/

/-- Every rule of the family writes one register and then advances `pc`. -/
theorem Completes.eq_with_regs_pc (h : Completes i s t) (hi : i.IsArithmetic) :
    t = { s with regs := t.regs, pc := t.pc } := by
  cases h
  case const | add | neg | mul | div | mod => rfl
  all_goals simp [Instr.mnemonic] at hi

/-! ### What the family does not read -/

/-- The state with other values in the fields the family neither reads nor writes (41_arithmetic.md R99). -/
def State.withUnread (c : CmpResult) (p : Nat) (m : Memory) (o : List Event) (s : State) : State :=
  { s with cmp := c, sp := p, mem := m, out := o }

variable {c : CmpResult} {p : Nat} {m : Memory} {o : List Event}

theorem State.raise_withUnread (f : FaultKind) :
    (s.withUnread c p m o).raise f = (s.raise f).withUnread c p m o := rfl

/-- Where a rule's result carries the other values along, so does the meaning's end, whether it completes or raises. -/
theorem complete_map_withUnread {r : Except FaultKind State} (h : complete s r = .next t) :
    complete (s.withUnread c p m o) (State.withUnread c p m o <$> r) = .next (t.withUnread c p m o) := by
  obtain rfl | ⟨f, rfl, rfl⟩ := complete_eq_next.mp h
  · rfl
  · exact congrArg Host.Outcome.next (State.raise_withUnread f)

/-- The operands, the divisor check and the result of each rule depend on registers alone, so the other values pass
through the whole rule (`map_bind`) to the state it returns. -/
theorem exec_withUnread (hi : i.IsArithmetic) (h : exec i s = .next t) :
    exec i (s.withUnread c p m o) = .next (t.withUnread c p m o) := by
  cases i
  case const | add | neg | mul | div | mod =>
    refine Eq.trans (congrArg (complete _) ?_) (complete_map_withUnread h)
    simp only [map_bind, map_pure]
    rfl
  all_goals simp [Instr.mnemonic] at hi

/-- Settles O29: a completed rule of the family has the frame, a raise is excluded by its run state, and the other
values pass through both. -/
theorem arithmeticTouchesOnlyRegistersAndPc : Obligations.ArithmeticTouchesOnlyRegistersAndPc := by
  intro i s t hi h
  refine ⟨fun hrun => ⟨?_, fun r => exec_reg h⟩, fun c p m o => exec_withUnread hi h⟩
  obtain h | ⟨f, rfl⟩ := exec_cases h
  · exact h.eq_with_regs_pc hi
  · exact absurd (State.raise_run s f) hrun

end Sys2Proof.Machine
end

section
/-! PROOFS. The statements of 46_interrupt_service.md: what INT leaves unchanged, and who writes the output (O51). -/

namespace Sys2Proof.Machine

variable {i : Instr} {s t : State}

/-- Both services pop one word, write the output and fall through to `pc + 2`. -/
theorem Completes.int_eq {n : Byte} (h : Completes (.int n) s t) :
    t = { s with sp := t.sp, pc := s.pc + 2, out := t.out } := by
  cases h
  case printInteger | printString => rfl

/-- No rule but those of INT emits an event. -/
theorem Completes.out (h : Completes i s t) (hi : i.mnemonic ≠ .int) : t.out = s.out := by
  cases h
  case printInteger | printString => exact absurd rfl hi
  case ja | je | jb => exact State.branchOn_out ..
  all_goals rfl

theorem exec_out (h : exec i s = .next t) (hi : i.mnemonic ≠ .int) : t.out = s.out := by
  obtain h | ⟨f, rfl⟩ := exec_cases h
  · exact h.out hi
  · exact State.raise_out s f

/-- Settles O51: the frame of a completed service covers registers, `cmp` and memory, a raise keeps all three, and
no other rule and no fault has `out` among the fields it writes. -/
theorem intTouchesOnlySpPcAndOut : Obligations.IntTouchesOnlySpPcAndOut := by
  refine ⟨fun n s t h => ?_, fun i s t => exec_out⟩
  obtain h | ⟨f, rfl⟩ := exec_cases h
  · have hframe := h.int_eq
    refine ⟨?_, ?_, ?_, fun _ => hframe⟩
    all_goals rw [hframe]
  · have hstopped := State.raise_run s f
    exact ⟨State.raise_regs s f, State.raise_cmp s f, State.raise_mem s f, fun hrun => absurd hstopped hrun⟩

end Sys2Proof.Machine
end

section
/-! PROOFS. The statement of 60_exceptions.md: what a step that raises changes (O21). -/

namespace Sys2Proof.Machine

variable {i : Instr} {s t : State}

/-- A completed rule never ends STOPPED_FAULT on its own account: HALT stops the run cleanly and no other rule writes
`run`, so only `raise` leaves a fault. -/
theorem Completes.run_ne_stoppedFault (h : Completes i s t) (hrun : s.run ≠ .stoppedFault) :
    t.run ≠ .stoppedFault := by
  cases h
  case halt => simp
  case ja | je | jb => simpa only [State.branchOn_run] using hrun
  all_goals exact hrun

theorem exec_eq_raise (h : exec i s = .next t) (hrun : s.run ≠ .stoppedFault) (hstopped : t.run = .stoppedFault) :
    ∃ f, t = s.raise f := by
  obtain hdone | hraise := exec_cases h
  · exact absurd hstopped (hdone.run_ne_stoppedFault hrun)
  · exact hraise

/-- A step that ends STOPPED_FAULT is a raise on the state it began with, from the fetch or from the instruction. -/
theorem step_eq_raise (h : step s = .next t) (hstopped : t.run = .stoppedFault) : ∃ f, t = s.raise f := by
  obtain ⟨hrun, ⟨i, -, hexec⟩ | ⟨f, -, rfl⟩⟩ := step_eq_next.mp h
  · exact exec_eq_raise hexec (by simp [hrun]) hstopped
  · exact ⟨f, rfl⟩

/-- Settles O21: a step that ends STOPPED_FAULT is a raise, and a raise writes the fault flags and `run` alone. -/
theorem raisingStepWritesOnlyFaultsAndRun : Obligations.RaisingStepWritesOnlyFaultsAndRun := by
  intro s t h hstopped
  obtain ⟨f, rfl⟩ := step_eq_raise h hstopped
  exact ⟨f, rfl, State.raise_cfg s f, State.raise_regs s f, State.raise_pc s f, State.raise_sp s f,
    State.raise_cmp s f, State.raise_mem s f, State.raise_out s f, State.raise_faults s f⟩

end Sys2Proof.Machine
end

section
/-! PROOFS. The converse of the inversion of a meaning: where a rule's checks pass, the instruction answers the rule's
result (`Completes.exec`); and one of the two answers there is always (O23). -/

namespace Sys2Proof.Machine

variable {i : Instr} {s t : State}

/-- The converse of `exec_cases`: where the checks of a rule pass, the instruction answers the rule's result. -/
theorem Completes.exec (h : Completes i s t) : exec i s = .next t := by
  cases h
  case halt | nop => rfl
  all_goals refine complete_eq_next.mpr (.inl ?_)
  case const | add | neg | mul | cmp | lsp => simp only [regOperand_byte]; rfl
  case div nonzero | mod nonzero => simp only [regOperand_byte, ok_bind, check_of _ nonzero]; rfl
  case ja target | je target | jb target | jmp target => simp only [jumpTarget_eq, if_pos target]; rfl
  case call target room fits =>
    simp only [jumpTarget_eq, if_pos target, ok_bind, check_of _ room, State.pushWord_eq, if_pos fits]; rfl
  case ret top => simp only [State.topWord_eq, if_pos top]; rfl
  case load inside =>
    simp only [regOperand_byte, ok_bind, dataAddress_eq, State.loadWord_eq, if_pos inside]; rfl
  case store inside =>
    simp only [regOperand_byte, ok_bind, dataAddress_eq, State.storeWord_eq, if_pos inside]; rfl
  case push room fits =>
    simp only [regOperand_byte, ok_bind, check_of _ room, State.pushWord_eq, if_pos fits]; rfl
  case pop top => simp only [regOperand_byte, ok_bind, State.topWord_eq, if_pos top]; rfl
  case pushAll room fits =>
    have fits8 : s.sp - 8 + 4 ≤ s.cfg.memSize := by omega
    have fits12 : s.sp - 12 + 4 ≤ s.cfg.memSize := by omega
    have fits16 : s.sp - 16 + 4 ≤ s.cfg.memSize := by omega
    simp only [check_of _ room, ok_bind, State.storeWord_eq, if_pos fits, if_pos fits8, if_pos fits12, if_pos fits16]
    rfl
  case popAll top =>
    have top0 : s.sp + 4 ≤ s.cfg.memSize := by omega
    have top4 : s.sp + 4 + 4 ≤ s.cfg.memSize := by omega
    have top8 : s.sp + 8 + 4 ≤ s.cfg.memSize := by omega
    have top12 : s.sp + 12 + 4 ≤ s.cfg.memSize := by omega
    simp only [check_of _ top, ok_bind, State.loadWord_eq, if_pos top0, if_pos top4, if_pos top8, if_pos top12]
    rfl
  case printInteger service top =>
    simp only [service, serviceOperand_printInteger, ok_bind, State.printInteger, State.topWord_eq, if_pos top]; rfl
  case printString service top string =>
    simp only [serviceOperand_eq_printString.mpr service, ok_bind, State.printString, State.topWord_eq, if_pos top,
      string]
    rfl

/-- Every meaning ends in `complete`, which answers the completed rule or the taking of its fault. -/
theorem exec_answers (i : Instr) (s : State) : ∃ t, exec i s = .next t := by
  cases i
  case halt => exact ⟨_, (Completes.halt s).exec⟩
  case nop => exact ⟨_, (Completes.nop s).exec⟩
  all_goals exact complete_answers ..

/-- Settles O23: every arm of the dispatch answers a next state. -/
theorem everyInstructionAnswersNext : Obligations.EveryInstructionAnswersNext := exec_answers

end Sys2Proof.Machine
end

section
/-! PROOFS. The invariant of a core: construction (O1, O5, O4), steps (O7), runs (O8) and host writes (O6). -/

namespace Sys2Proof.Machine

variable {i : Instr} {s t : State}

/-! ### Fault flags, counted -/

/-- The flags add up to 0 exactly where none is set. -/
theorem FaultFlags.count_eq_zero {f : FaultFlags} : f.count = 0 ↔ ∀ k, f.has k = false := by
  simp only [FaultFlags.count, Nat.add_eq_zero_iff, Bool.toNat_eq_zero]
  constructor
  · rintro ⟨⟨⟨⟨h0, h1⟩, h2⟩, h3⟩, h4⟩ k
    cases k <;> assumption
  · intro h
    exact ⟨⟨⟨⟨h .badInstruction, h .badAccess⟩, h .invalidRegisterIndex⟩, h .stackOverflow⟩, h .stackUnderflow⟩

theorem FaultFlags.eq_clear_of_count_eq_zero {f : FaultFlags} (h : f.count = 0) : f = FaultFlags.clear := by
  have hclear := FaultFlags.count_eq_zero.mp h
  cases f
  simp only [FaultFlags.clear, FaultFlags.mk.injEq]
  exact ⟨hclear .badInstruction, hclear .badAccess, hclear .invalidRegisterIndex, hclear .stackOverflow,
    hclear .stackUnderflow⟩

/-- Setting one flag where none is set leaves exactly one set. -/
theorem FaultFlags.count_set {f : FaultFlags} (k : FaultKind) (h : f.count = 0) : (f.set k).count = 1 := by
  rw [FaultFlags.eq_clear_of_count_eq_zero h]
  cases k <;> rfl

/-! ### What a completed rule does to each part of the state -/

/-- The one way a completed rule changes memory: words written inside the span it stores to, which lies inside memory.
What such writes keep, the rule keeps. -/
theorem Completes.mem_induction (h : Completes i s t) (P : Memory → Prop)
    (hwrite : ∀ m a v, (i.storeSpan s).1 ≤ a → a + 4 ≤ (i.storeSpan s).1 + (i.storeSpan s).2 →
      a + 4 ≤ s.cfg.memSize → P m → P (m.writeWord a v))
    (hs : P s.mem) : P t.mem := by
  cases h
  case store inside => exact hwrite _ _ _ le_rfl le_rfl inside hs
  case call fits | push fits => exact hwrite _ _ _ le_rfl le_rfl fits hs
  case pushAll room fits =>
    simp only [Instr.storeSpan] at hwrite
    refine hwrite _ _ _ ?_ ?_ ?_ (hwrite _ _ _ ?_ ?_ ?_ (hwrite _ _ _ ?_ ?_ ?_ (hwrite _ _ _ ?_ ?_ ?_ hs)))
    all_goals omega
  case ja | je | jb => rwa [State.branchOn_mem]
  all_goals exact hs

theorem Completes.faults (h : Completes i s t) : t.faults = s.faults := by
  cases h
  case ja | je | jb => exact State.branchOn_faults ..
  all_goals rfl

/-- The stack bounds: a push leaves room for its word above STACK_LIMIT, a pop takes a word that lies below MEM_SIZE. -/
theorem Completes.sp_bounds (h : Completes i s t) (hlow : s.cfg.stackLimit ≤ s.sp) (hhigh : s.sp ≤ s.cfg.memSize) :
    s.cfg.stackLimit ≤ t.sp ∧ t.sp ≤ s.cfg.memSize := by
  cases h
  case call room fits => exact ⟨Nat.le_sub_of_add_le room, (Nat.sub_le ..).trans hhigh⟩
  case push room fits => exact ⟨Nat.le_sub_of_add_le room.le, (Nat.sub_le ..).trans hhigh⟩
  case pushAll room fits => exact ⟨Nat.le_sub_of_add_le room.le, (Nat.sub_le ..).trans hhigh⟩
  case ret top | pop top | printInteger top | printString top _ => exact ⟨hlow.trans (Nat.le_add_right ..), top⟩
  case popAll top => exact ⟨hlow.trans (Nat.le_add_right ..), top⟩
  case ja | je | jb => rw [State.branchOn_sp]; exact ⟨hlow, hhigh⟩
  all_goals exact ⟨hlow, hhigh⟩

/-- `sp` moves by the instruction's own amount (45_stack.md R138). -/
theorem Completes.sp (h : Completes i s t) : (t.sp : Int) = s.sp + i.spShift := by
  cases h
  case call room fits | push room fits =>
    exact Int.ofNat_sub (show 4 ≤ s.sp by omega)
  case pushAll room fits => exact Int.ofNat_sub (show 16 ≤ s.sp by omega)
  case ja | je | jb => rw [State.branchOn_sp]; exact (add_zero _).symm
  case ret | pop | popAll | printInteger | printString => rfl
  all_goals exact (add_zero _).symm

theorem Instr.spShift_emod_four (i : Instr) : i.spShift % 4 = 0 := by
  cases i <;> rfl

/-- Every instruction but a control transfer leaves `pc` at the address after it (10_state.md R21). -/
theorem Completes.pc (h : Completes i s t) (hi : i.fallsThrough = true) : t.pc = s.pc + i.mnemonic.length := by
  cases h
  case ja | je | jb | jmp | call | ret => cases hi
  all_goals rfl

/-- A control transfer leaves in `pc` an unsigned word or the fall-through (10_state.md R20). -/
theorem Completes.pc_lt (h : Completes i s t) (hpc : s.pc + maxInstrLength < 2 ^ 32) : t.pc < 2 ^ 32 := by
  by_cases hi : i.fallsThrough = true
  · have hlen := i.mnemonic.length_le
    rw [h.pc hi]
    omega
  · cases h
    case ja addr _ | je addr _ | jb addr _ =>
      rw [State.branchOn_pc]
      split
      · exact addr.isLt
      · exact lt_of_le_of_lt (Nat.add_le_add_left (by decide) _) hpc
    case jmp addr _ | call addr _ _ _ => exact addr.isLt
    case ret => exact BitVec.isLt _
    all_goals exact absurd rfl hi

/-- A completed rule emits at most one event, and a byte string it emits holds no zero byte (46_interrupt_service.md
R146). -/
theorem Completes.out_wf (h : Completes i s t) (hs : ∀ e ∈ s.out, e.wf) : ∀ e ∈ t.out, e.wf := by
  cases h
  case printInteger =>
    refine List.forall_mem_append.mpr ⟨hs, List.forall_mem_singleton.mpr ?_⟩
    trivial
  case printString bs _ _ string =>
    refine List.forall_mem_append.mpr ⟨hs, List.forall_mem_singleton.mpr ?_⟩
    obtain ⟨-, -, hnonzero, -⟩ := (State.stringAt_eq_ok ..).mp string
    exact fun hmem => hnonzero 0 hmem rfl
  case ja | je | jb => rwa [State.branchOn_out]
  all_goals exact hs

/-! ### The invariant along steps and runs -/

/-- Taking a fault keeps the invariant of a running core: the one flag it sets is the only one. -/
theorem State.Inv.raise (h : s.Inv) (hrun : s.run = .running) (f : FaultKind) : (s.raise f).Inv := by
  have hclear : s.faults.count = 0 := by simpa [hrun] using h.flags
  exact { h with flags := FaultFlags.count_set f hclear }

/-- A completed rule keeps the invariant of a running core whose instruction lies inside memory. -/
theorem Completes.inv (h : Completes i s t) (hs : s.Inv) (hrun : s.run = .running) (hpc : s.pc < s.cfg.memSize) :
    t.Inv := by
  obtain ⟨hlow, hhigh⟩ := h.sp_bounds hs.sp_low hs.sp_high
  have hclear : s.faults.count = 0 := by simpa [hrun] using hs.flags
  have hnofault : t.run ≠ .stoppedFault := h.run_ne_stoppedFault (by simp [hrun])
  obtain ⟨-, -, hsize, -⟩ := hs.cfg_wf
  exact {
    cfg_wf := by rw [h.cfg]; exact hs.cfg_wf
    sp_low := by rw [h.cfg]; exact hlow
    sp_high := by rw [h.cfg]; exact hhigh
    sp_aligned := by
      have hmoved := h.sp
      have hshift := Instr.spShift_emod_four i
      have haligned := hs.sp_aligned
      omega
    pc_lt := h.pc_lt (by simp only [maxInstrLength]; omega)
    mem_wf := h.mem_induction Memory.wf (fun _ _ _ _ _ _ => Memory.wf_writeWord _ _) hs.mem_wf
    mem_within := by
      rw [h.cfg]
      exact h.mem_induction (Memory.within · s.cfg.memSize)
        (fun _ _ _ _ _ hinside hm => Memory.within_writeWord _ hm hinside) hs.mem_within
    flags := by rw [h.faults, hclear, if_neg hnofault]
    out_wf := h.out_wf hs.out_wf }

/-- Past the end of memory the window is empty (40_dispatch.md R77). -/
theorem State.window_of_memSize_le (h : s.cfg.memSize ≤ s.pc) : s.window = [] := by
  rw [State.window, Nat.sub_eq_zero_of_le h, Nat.min_zero]
  rfl

/-- Step (1): outside memory there is no byte to decode (40_dispatch.md R77). -/
theorem State.fetch_of_memSize_le (h : s.cfg.memSize ≤ s.pc) : s.fetch = .error .badAccess := by
  rw [State.fetch, State.window_of_memSize_le h]
  rfl

theorem State.pc_lt_of_fetch_eq_ok (h : s.fetch = .ok i) : s.pc < s.cfg.memSize := by
  by_contra hpc
  rw [State.fetch_of_memSize_le (Nat.le_of_not_lt hpc)] at h
  cases h

theorem State.Inv.step (hs : s.Inv) (h : step s = .next t) : t.Inv := by
  obtain ⟨hrun, ⟨i, hfetch, hexec⟩ | ⟨f, -, rfl⟩⟩ := step_eq_next.mp h
  · obtain hdone | ⟨f, rfl⟩ := exec_cases hexec
    · exact hdone.inv hs hrun (State.pc_lt_of_fetch_eq_ok hfetch)
    · exact hs.raise hrun f
  · exact hs.raise hrun f

/-- Settles O7: a step is a completed rule or a raise, and each keeps every clause of the invariant. -/
theorem stepKeepsInv : Obligations.StepKeepsInv := fun _ _ => State.Inv.step

/-- A core that has stopped is clean exactly where no flag is set (70_reset_and_hazards.md R182). -/
theorem State.Inv.stoppedOk_iff (h : s.Inv) (hstopped : s.run ≠ .running) :
    s.run = .stoppedOk ↔ ∀ f, s.faults.has f = false := by
  rw [← FaultFlags.count_eq_zero, h.flags]
  cases hrun : s.run
  case running => exact absurd hrun hstopped
  case stoppedOk | stoppedFault => simp

/-- Settles O8: the invariant is carried along the run by O7, and says when a stopped core is clean. -/
theorem runKeepsInvAndCleanEndHasNoFlag : Obligations.RunKeepsInvAndCleanEndHasNoFlag := by
  intro budget s hs
  have hinv : (State.runFor budget s).Inv := State.runFor_induction State.Inv stepKeepsInv budget hs
  exact ⟨hinv, hinv.stoppedOk_iff⟩

/-! ### Construction -/

/-- Settles O1: every field of `State.construct` is the value the spec gives it. -/
theorem constructionState : Obligations.ConstructionState := by
  intro c
  exact ⟨State.construct_cfg c, RegFile.get_zero, State.construct_pc c, State.construct_sp c, FaultFlags.has_clear,
    State.construct_cmp c, State.construct_run c, Memory.read_nil, State.construct_out c⟩

/-- Construction of an admissible configuration meets the invariant. -/
theorem State.inv_construct {c : Config} (h : c.wf) : (State.construct c).Inv := by
  have hwf := h
  obtain ⟨hmem, -, -, hlimit, -, -⟩ := hwf
  exact {
    cfg_wf := h
    sp_low := hlimit
    sp_high := le_rfl
    sp_aligned := hmem
    pc_lt := by simp
    mem_wf := ⟨List.Pairwise.nil, by simp⟩
    mem_within := by simp
    flags := rfl
    out_wf := by simp }

/-- Settles O5: the configuration of `State.reset` is admissible. -/
theorem resetSatisfiesInv : Obligations.ResetSatisfiesInv :=
  State.inv_construct (c := Config.default) (by decide)

theorem roundUp4_eq {n M : Nat} (hM : M % 4 = 0) (hle : n ≤ M) (hlt : M < n + 4) : roundUp4 n = M := by
  unfold roundUp4
  omega

/-- Settles O4: both sizes round to the given multiples of 4, and the rest of `Config.wf` is the two bounds. -/
theorem createRoundsOrRefuses : Obligations.CreateRoundsOrRefuses := by
  intro o n memorySize stackLimit M L ho hn hM hleM hltM hL hleL hltL
  have hcreate : State.create o n memorySize stackLimit =
      if Config.wf ⟨M, L, o, n⟩ then some (State.construct ⟨M, L, o, n⟩) else none := by
    simp only [State.create, roundUp4_eq hM hleM hltM, roundUp4_eq hL hleL hltL]
  rw [hcreate]
  constructor
  · intro hsize hlimit
    have hwf : Config.wf ⟨M, L, o, n⟩ := ⟨hM, hL, hsize, hlimit, ho, hn⟩
    exact ⟨if_pos hwf, State.inv_construct hwf⟩
  · intro hbad
    refine if_neg fun ⟨_, _, hsize, hlimit, _, _⟩ => ?_
    dsimp only at hsize hlimit
    omega

/-! ### Host writes -/

/-- A change of memory alone keeps the invariant where memory stays canonical and inside MEM_SIZE. -/
theorem State.Inv.withMem (h : s.Inv) {m : Memory} (hwf : m.wf) (hwithin : m.within s.cfg.memSize) :
    State.Inv { s with mem := m } :=
  { h with mem_wf := hwf, mem_within := hwithin }

/-- Settles O6: each host write replaces memory by one of the list's own writes, which keep its form and bounds. -/
theorem hostWritesKeepInv : Obligations.HostWritesKeepInv := by
  intro s hs
  refine ⟨fun image hlong => if_neg hlong.not_ge, ?_, ?_, ?_⟩
  · intro image t h
    obtain ⟨-, rfl⟩ := State.loadImage_eq_some.mp h
    exact ⟨hs.withMem (Memory.wf_writeBytes _ _ _ hs.mem_wf) (Memory.within_writeBytes _ _ hs.mem_within), rfl⟩
  · intro a b t h
    obtain ⟨ha, rfl⟩ := State.hostWriteByte_eq_some.mp h
    refine ⟨hs.withMem (Memory.wf_write _ _ hs.mem_wf) (Memory.within_write _ hs.mem_within ha), rfl, ?_⟩
    simp [State.hostReadByte, ha]
  · intro a v t h
    obtain ⟨ha, rfl⟩ := State.hostWriteWord_eq_some.mp h
    refine ⟨hs.withMem (Memory.wf_writeWord _ _ hs.mem_wf) (Memory.within_writeWord _ hs.mem_within ha), rfl, ?_⟩
    simp [State.hostReadWord, ha]

end Sys2Proof.Machine
end

section
/-! PROOFS. The statements of 30_encoding.md: decode and encode are inverse (O9, O10), the unassigned bytes (O13) and
the worked encodings (O14). -/

namespace Sys2Proof.Machine

/-- Settles O9: an admissible map finds the mnemonic at its own byte, and the parser takes exactly the operand bytes. -/
theorem decodeOfEncode : Obligations.DecodeOfEncode := by
  intro m hm i rest
  exact decode_cons_eq_ok.mpr ⟨OpcodeMap.lookup_byte hm i.mnemonic, rfl⟩

/-- Settles O10: the head is the byte of the mnemonic that was looked up, and the parser took the operand bytes. -/
theorem decodedBytesAreTheEncoding : Obligations.DecodedBytesAreTheEncoding := by
  intro m bs rest i h
  cases bs with
  | nil => cases h
  | cons op bs =>
    obtain ⟨hlookup, rfl⟩ := decode_cons_eq_ok.mp h
    rw [encode_eq_cons_of_lookup hlookup, List.cons_append]

/-- Settles O13: a byte is unassigned where it is none of the 23 of the map; under an admissible map 0xFF is none. -/
theorem unassignedBytes : Obligations.UnassignedBytes := by
  constructor
  · intro b
    simp only [OpcodeMap.lookup, List.find?_eq_none, Mnemonic.all, List.forall_mem_cons, OpcodeMap.byte,
      OpcodeMap.default, beq_iff_eq, BitVec.toNat_eq, BitVec.ofNat_eq_ofNat, BitVec.toNat_ofNat, Nat.reducePow,
      Nat.reduceMod, Nat.one_mod, List.not_mem_nil, IsEmpty.forall_iff, implies_true, and_true]
    have hb := b.isLt
    omega
  · intro m hm
    obtain ⟨-, hff⟩ := hm
    exact OpcodeMap.lookup_eq_none.mpr fun k hk => hff (List.mem_map.mpr ⟨k, k.mem_all, hk⟩)

/-- Settles O14: the decoder evaluates to the instruction on each of the nine byte strings. -/
theorem workedEncodingsDecode : Obligations.WorkedEncodingsDecode := by
  refine ⟨?_, ?_, ?_, ?_, ?_, ?_, ?_, ?_, ?_⟩ <;> rfl

end Sys2Proof.Machine
end

section
/-! PROOFS. The statements of 40_dispatch.md: when a step is taken (O15), what it runs (O16, O17), step (1) (O18) and
the operand checks of step (5) (O22). -/

namespace Sys2Proof.Machine

variable {i : Instr} {s t : State}

/-! ### When a step is taken -/

/-- A running core always steps: to the fetched instruction's answer, or to the fetch's fault taken. -/
theorem exists_step_eq_next : (∃ t, step s = .next t) ↔ s.run = .running := by
  constructor
  · rintro ⟨t, h⟩
    exact (step_eq_next.mp h).1
  · intro hrun
    cases hfetch : s.fetch with
    | ok i => rw [step_of_fetch_eq_ok hrun hfetch]; exact exec_answers i s
    | error f => exact ⟨_, step_of_fetch_eq_error hrun hfetch⟩

theorem exists_step_eq_fault (h : s.run ≠ .running) : ∃ f, step s = .fault f := by
  unfold step
  cases hrun : s.run with
  | running => exact absurd hrun h
  | stoppedOk => exact ⟨_, rfl⟩
  | stoppedFault => exact ⟨_, rfl⟩

theorem State.runFor_of_stopped (h : s.run ≠ .running) (n : Nat) : State.runFor n s = s := by
  obtain ⟨f, hf⟩ := exists_step_eq_fault h
  cases n with
  | zero => rfl
  | succ n => rw [State.runFor, hf]

/-- Settles O15: only the arm of `step` for a running core answers a next state. -/
theorem stoppedCoreTakesNoStep : Obligations.StoppedCoreTakesNoStep := fun _ =>
  ⟨exists_step_eq_next, fun h => ⟨exists_step_eq_fault h, State.runFor_of_stopped h⟩⟩

/-! ### What a step runs -/

/-- Settles O16: the fetch is the decode of the window, and the step is the meaning of what was fetched. -/
theorem stepRunsTheDecodedInstruction : Obligations.StepRunsTheDecodedInstruction := fun _ _ _ hrun hdecode =>
  step_of_fetch_eq_ok hrun (State.fetch_of_decode_eq_ok hdecode)

theorem Memory.readBytes_eq {m : Memory} {a : Nat} {bs : List Byte}
    (h : ∀ (k : Nat) (hk : k < bs.length), m.read (a + k) = bs[k]) : m.readBytes a bs.length = bs := by
  refine List.ext_getElem (Memory.length_readBytes ..) fun k hk hk' => ?_
  rw [Memory.getElem_readBytes, h k hk']

/-- Bytes that stand at `pc`, inside memory and no longer than an instruction can be, begin the window. -/
theorem State.exists_window_eq_append {bs : List Byte} (hlen : bs.length ≤ maxInstrLength)
    (hfits : s.pc + bs.length ≤ s.cfg.memSize)
    (hread : ∀ (k : Nat) (hk : k < bs.length), s.mem.read (s.pc + k) = bs[k]) : ∃ rest, s.window = bs ++ rest := by
  have hle : bs.length ≤ min maxInstrLength (s.cfg.memSize - s.pc) := by omega
  obtain ⟨n, hn⟩ := Nat.exists_eq_add_of_le hle
  exact ⟨_, by rw [State.window, hn, Memory.readBytes_add, Memory.readBytes_eq hread]⟩

/-- Settles O17: the encoding begins the window, so the window decodes to the instruction. -/
theorem instructionInMemoryRuns : Obligations.InstructionInMemoryRuns := by
  intro s i hrun hwf hfits hread
  have hlen : (encode s.cfg.opcodes i).length ≤ maxInstrLength := by
    rw [length_encode]
    exact i.mnemonic.length_le
  obtain ⟨rest, hwindow⟩ := State.exists_window_eq_append hlen hfits hread
  refine stepRunsTheDecodedInstruction s i rest hrun ?_
  rw [hwindow]
  exact decodeOfEncode _ hwf i rest

theorem step_of_memSize_le (hrun : s.run = .running) (h : s.cfg.memSize ≤ s.pc) :
    step s = .next (s.raise .badAccess) :=
  step_of_fetch_eq_error hrun (State.fetch_of_memSize_le h)

/-- Settles O18: outside memory the window is empty; RET does not check the word it pops, the next fetch does. -/
theorem pcOutsideMemoryFaults : Obligations.PcOutsideMemoryFaults := by
  refine ⟨fun _ => step_of_memSize_le, fun s hrun htop hout => ?_⟩
  exact ⟨_, (Completes.ret s htop).exec, rfl, rfl, step_of_memSize_le hrun hout⟩

/-! ### The operand checks -/

theorem complete_of_regOperand_invalid {a : Byte} (ha : 4 ≤ a.toNat) (k : Reg → Except FaultKind State) :
    complete s (regOperand a >>= k) = .next (s.raise .invalidRegisterIndex) := by
  rw [regOperand_of_invalid ha]
  rfl

theorem complete_of_two_regOperands_invalid {a b : Byte} (hab : 4 ≤ a.toNat ∨ 4 ≤ b.toNat)
    (k : Reg → Reg → Except FaultKind State) :
    complete s (regOperand a >>= fun x => regOperand b >>= fun y => k x y) =
      .next (s.raise .invalidRegisterIndex) := by
  by_cases ha : 4 ≤ a.toNat
  · exact complete_of_regOperand_invalid ha _
  · obtain ⟨r, rfl⟩ := exists_reg_of_lt (Nat.lt_of_not_le ha)
    rw [regOperand_byte]
    exact complete_of_regOperand_invalid (hab.resolve_left ha) _

/-- A rule begins with its register fields: a bad one is the fault, whatever comes after. -/
theorem exec_of_regsOk_eq_false (h : i.regsOk = false) : exec i s = .next (s.raise .invalidRegisterIndex) := by
  cases i
  case const | neg | load | store | push | pop | lsp =>
    exact complete_of_regOperand_invalid (by simpa [Instr.regsOk, Instr.regFields] using h) _
  case add | mul | div | mod | cmp =>
    refine complete_of_two_regOperands_invalid ?_ _
    simp only [Instr.regsOk, Instr.regFields, List.all_cons, List.all_nil, Bool.and_true, Bool.and_eq_false_iff,
      decide_eq_false_iff_not, Nat.not_lt] at h
    exact h
  all_goals cases h

/-- Only INT has an interrupt number to check, and no register field before it. -/
theorem exec_of_intnoOk_eq_false (h : i.intnoOk s.cfg.ints = false) :
    exec i s = .next (s.raise .badInstruction) := by
  cases i
  case int n =>
    simp only [Instr.intnoOk, Bool.or_eq_false_iff, beq_eq_false_iff_ne] at h
    simp only [exec, execInt, serviceOperand_of_unknown h.1 h.2]
    rfl
  all_goals cases h

/-- With good register fields the address is the next check. -/
theorem exec_of_addrOk_eq_false (hregs : i.regsOk = true) (h : i.addrOk s.cfg.memSize = false) :
    exec i s = .next (s.raise .badAccess) := by
  cases i
  case ja | je | jb | jmp | call =>
    have htarget := of_decide_eq_false h
    simp only [exec, execJa, execJe, execJb, execJmp, execCall, jumpTarget_eq, if_neg htarget]
    rfl
  case load r _ | store r _ =>
    have hdata := of_decide_eq_false h
    have hr : r.toNat < 4 := by simpa [Instr.regsOk, Instr.regFields] using hregs
    obtain ⟨r, rfl⟩ := exists_reg_of_lt hr
    simp only [exec, execLoad, execStore, regOperand_byte, ok_bind, dataAddress_eq, if_neg hdata]
    rfl
  all_goals cases h

/-- Settles O22: every rule makes its register checks first, then the one check its format has left. -/
theorem operandChecksInOrder : Obligations.OperandChecksInOrder := fun _ _ =>
  ⟨exec_of_regsOk_eq_false, fun _ => exec_of_intnoOk_eq_false, fun hregs _ => exec_of_addrOk_eq_false hregs⟩

end Sys2Proof.Machine
end

section
/-! PROOFS. The results of 41_arithmetic.md, and of LSP (45_stack.md section 4): O24 to O28. -/

namespace Sys2Proof.Machine

variable {s : State}

/-- What a rule that writes one register and falls through leaves: the frame, the register, the others. -/
theorem State.setReg_advance_spec (s : State) (r : Reg) (v : Word) (n : Nat) :
    (s.setReg r v).advance n = { s with regs := ((s.setReg r v).advance n).regs, pc := s.pc + n } ∧
      ((s.setReg r v).advance n).reg r = v ∧ ∀ q, q ≠ r → ((s.setReg r v).advance n).reg q = s.reg q :=
  ⟨rfl, State.reg_setReg_self s r v, fun _ hq => RegFile.get_set_of_ne s.regs v hq⟩

/-- Settles O24: both rules write one register and fall through. -/
theorem constAndLspWriteTheirRegister : Obligations.ConstAndLspWriteTheirRegister := by
  intro s r
  have hlsp := (Completes.lsp s r).exec
  rw [w32_natCast] at hlsp
  exact ⟨fun imm => ⟨_, (Completes.const s r imm).exec, State.setReg_advance_spec ..⟩,
    ⟨_, hlsp, State.setReg_advance_spec ..⟩⟩

/-- Settles O25: the exact result narrowed to 32 bits is the modular one. -/
theorem addNegMulWrap : Obligations.AddNegMulWrap := by
  intro s a d
  have hadd := (Completes.add s a d).exec
  have hneg := (Completes.neg s d).exec
  have hmul := (Completes.mul s a d).exec
  rw [w32_add] at hadd
  rw [w32_neg] at hneg
  rw [w32_mul] at hmul
  exact ⟨⟨_, hadd, State.setReg_advance_spec ..⟩, ⟨_, hneg, State.setReg_advance_spec ..⟩,
    ⟨_, hmul, State.setReg_advance_spec ..⟩⟩

theorem s32_ne_zero {v : Word} (h : v ≠ 0) : s32 v ≠ 0 := fun hv =>
  h (BitVec.eq_of_toInt_eq hv)

/-- The narrowed quotient is the signed division of patterns. -/
theorem w32_quotient (x y : Word) : w32 (quotient (s32 x) (s32 y)) = x.sdiv y := by
  apply BitVec.eq_of_toInt_eq
  rw [BitVec.toInt_sdiv, w32, BitVec.toInt_ofInt]
  rfl

/-- Signed division of patterns overflows only for INT_MIN by -1, and leaves INT_MIN there (41_arithmetic.md R97). -/
theorem toInt_sdiv_eq (x y : Word) : (x.sdiv y).toInt =
    if x.toInt = -2 ^ 31 ∧ y.toInt = -1 then -2 ^ 31 else x.toInt.tdiv y.toInt := by
  split
  case isTrue h =>
    rw [BitVec.toInt_sdiv, h.1, h.2]
    rfl
  case isFalse h =>
    refine BitVec.toInt_sdiv_of_ne_or_ne _ _ (not_and_or.mp fun ⟨hx, hy⟩ => h ⟨?_, ?_⟩)
    · rw [hx]; rfl
    · rw [hy]; rfl

/-- Settles O26: the destination holds the signed division of the patterns. -/
theorem divTruncatesTowardZero : Obligations.DivTruncatesTowardZero := by
  intro s a d ha
  have hdiv := (Completes.div s a d (s32_ne_zero ha)).exec
  rw [w32_quotient] at hdiv
  obtain ⟨hframe, hreg, hothers⟩ := State.setReg_advance_spec s d ((s.reg d).sdiv (s.reg a)) 3
  exact ⟨_, hdiv, hframe, by rw [hreg, toInt_sdiv_eq], hothers⟩

/-- The narrowed remainder is the signed remainder of patterns: it always fits. -/
theorem w32_remainder (x y : Word) : w32 (remainder (s32 x) (s32 y)) = x.srem y := by
  have hrem : remainder (s32 x) (s32 y) = s32 (x.srem y) := by
    rw [remainder, quotient, ← Int.tmod_def]
    exact (BitVec.toInt_srem x y).symm
  rw [hrem, w32_s32]

theorem tmod_nonpos {a : Int} (b : Int) (ha : a ≤ 0) : a.tmod b ≤ 0 := by
  have hneg := Int.tmod_nonneg b (Int.neg_nonneg_of_nonpos ha)
  rw [Int.neg_tmod] at hneg
  exact Int.nonpos_of_neg_nonneg hneg

/-- Settles O27: the destination holds the signed remainder of the patterns, which is that of truncated division. -/
theorem modLeavesTheRemainder : Obligations.ModLeavesTheRemainder := by
  intro s a d ha
  have hmod := (Completes.mod s a d (s32_ne_zero ha)).exec
  rw [w32_remainder] at hmod
  obtain ⟨hframe, hreg, hothers⟩ := State.setReg_advance_spec s d ((s.reg d).srem (s.reg a)) 3
  refine ⟨_, hmod, hframe, ?_⟩
  rw [hreg, BitVec.toInt_srem]
  have hdivisor : (s.reg a).toInt ≠ 0 := s32_ne_zero ha
  refine ⟨Int.tmod_def .., ?_, ?_, ?_, hothers⟩
  · rw [Int.natAbs_tmod]
    exact Nat.mod_lt _ (Int.natAbs_pos.mpr hdivisor)
  · exact lt_imp_lt_of_le_imp_le (tmod_nonpos _)
  · exact lt_imp_lt_of_le_imp_le (Int.tmod_nonneg _)

/-- Settles O28: the divisor check fails before the first write. -/
theorem zeroDivisorFaults : Obligations.ZeroDivisorFaults := by
  intro s a d ha
  have hzero : ¬ s32 (s.reg a) ≠ 0 := by simp [ha, s32]
  constructor
  · simp only [exec, execDiv, regOperand_byte, ok_bind, check_of_not _ hzero]
    rfl
  · simp only [exec, execMod, regOperand_byte, ok_bind, check_of_not _ hzero]
    rfl

end Sys2Proof.Machine
end

section
/-! PROOFS. The results of 42_compare_branch.md (O30, O31) and the host's status word (O60). -/

namespace Sys2Proof.Machine

/-- Settles O30: the rule writes the signed order of the two registers. -/
theorem cmpSetsTheSignedOrder : Obligations.CmpSetsTheSignedOrder := fun s a b =>
  ⟨_, (Completes.cmp s a b).exec, rfl, compareSigned_spec ..⟩

theorem State.branchOn_eq (s : State) (want : CmpResult) (target : Nat) :
    s.branchOn want target = { s with pc := if s.cmp = want then target else s.pc + 5 } := by
  unfold State.branchOn
  split <;> rfl

/-- Settles O31: with the target inside memory each branch completes, and writes `pc` alone. -/
theorem branchesFollowTheComparison : Obligations.BranchesFollowTheComparison := by
  intro s a htarget
  simp only [← State.branchOn_eq]
  exact ⟨(Completes.ja s a htarget).exec, (Completes.je s a htarget).exec, (Completes.jb s a htarget).exec,
    (Completes.jmp s a htarget).exec⟩

/-! ### The status word -/

/-- The number whose binary digits are the five flags, lowest code first, with the comparison code above them
(10_state.md R28). -/
def State.statusNat (s : State) : Nat :=
  Nat.bit s.faults.badInstruction (Nat.bit s.faults.badAccess (Nat.bit s.faults.invalidRegisterIndex
    (Nat.bit s.faults.stackOverflow (Nat.bit s.faults.stackUnderflow s.cmp.code))))

theorem State.statusWord_eq (s : State) : s.statusWord = BitVec.ofNat 32 s.statusNat := by
  unfold State.statusWord State.statusNat
  simp only [Nat.bit_val]
  congr 1
  omega

theorem CmpResult.code_lt (c : CmpResult) : c.code < 2 ^ 2 := by
  cases c <;> decide

theorem State.statusNat_shiftRight (s : State) : s.statusNat >>> 5 = s.cmp.code := by
  simp [State.statusNat, Nat.shiftRight_succ, Nat.bit_div_two]

theorem State.statusNat_lt (s : State) : s.statusNat < 2 ^ 7 := by
  have hcode := s.cmp.code_lt
  have hshift := s.statusNat_shiftRight
  rw [Nat.shiftRight_eq_div_pow] at hshift
  omega

/-- The digit at a fault's code is its flag. -/
theorem State.testBit_statusNat (s : State) (f : FaultKind) : s.statusNat.testBit f.code = s.faults.has f := by
  cases f <;> simp only [FaultKind.code, FaultFlags.has, State.statusNat, Nat.testBit_bit_succ, Nat.testBit_bit_zero]

theorem FaultKind.code_lt (f : FaultKind) : f.code < 32 := by
  cases f <;> decide

/-- Settles O60: the word's bits are the digits of `statusNat`, its bits from 5 up the comparison code, below 4. -/
theorem statusWordLayout : Obligations.StatusWordLayout := by
  intro s
  rw [State.statusWord_eq]
  refine ⟨fun f => ?_, ?_, fun k hk => ?_⟩
  · rw [BitVec.getLsbD_ofNat, State.testBit_statusNat, decide_eq_true f.code_lt, Bool.true_and]
  · have hlt : s.statusNat < 2 ^ 32 := s.statusNat_lt.trans (by decide)
    rw [BitVec.extractLsb'_toNat, BitVec.toNat_ofNat, Nat.mod_eq_of_lt hlt, State.statusNat_shiftRight]
    exact Nat.mod_eq_of_lt s.cmp.code_lt
  · have hlt : s.statusNat < 2 ^ k := s.statusNat_lt.trans_le (Nat.pow_le_pow_right (by decide) hk)
    rw [BitVec.getLsbD_ofNat, Nat.testBit_lt_two_pow hlt, Bool.and_false]

end Sys2Proof.Machine
end

section
/-! PROOFS. The results of 20_memory.md and 44_load_store.md: O35 to O38. -/

namespace Sys2Proof

theorem toNat_append_byte {n : Nat} (hi : BitVec n) (lo : Byte) :
    (hi ++ lo).toNat = lo.toNat + 2 ^ 8 * hi.toNat := by
  rw [BitVec.toNat_append, ← Nat.shiftLeft_add_eq_or_of_lt lo.isLt, Nat.shiftLeft_eq]
  omega

/-- `le32` is the little-endian sum of its bytes (20_memory.md R39). -/
theorem toNat_le32 (b0 b1 b2 b3 : Byte) :
    (le32 b0 b1 b2 b3).toNat = b0.toNat + 2 ^ 8 * b1.toNat + 2 ^ 16 * b2.toNat + 2 ^ 24 * b3.toNat := by
  simp only [le32, toNat_append_byte]
  omega

theorem getElem_wordBytes (w : Word) {k : Nat} (hk : k < (wordBytes w).length) : (wordBytes w)[k] = wordByte w k := by
  match k, hk with
  | 0, _ | 1, _ | 2, _ | 3, _ => rfl

end Sys2Proof

namespace Sys2Proof.Machine

theorem Memory.read_writeWord_inside (m : Memory) (a : Nat) (v : Word) {k : Nat} (hk : k < 4) :
    (m.writeWord a v).read (a + k) = wordByte v k := by
  rw [Memory.read_writeWord]
  match k, hk with
  | 0, _ | 1, _ | 2, _ | 3, _ => simp

/-- Settles O35: the read puts four bytes together, the write takes a word apart into them. -/
theorem wordsAreLittleEndian : Obligations.WordsAreLittleEndian := by
  intro m a
  refine ⟨toNat_le32 .., fun v => ⟨fun _ => ?_, fun _ => ?_⟩⟩
  · exact Memory.read_writeWord_inside m a v
  · exact Memory.read_writeWord_of_outside m v

/-- Settles O36: the rule writes the word at the address to its register and falls through. -/
theorem loadReadsTheWord : Obligations.LoadReadsTheWord := fun s r a hinside =>
  ⟨_, (Completes.load s r a hinside).exec, State.setReg_advance_spec ..⟩

/-- Settles O37: the word written is read back, by LOAD too, and no other byte changes. -/
theorem storeWritesTheWord : Obligations.StoreWritesTheWord := by
  intro s r a hinside
  refine ⟨_, (Completes.store s r a hinside).exec, rfl, Memory.readWord_writeWord_self .., ?_, fun q => ?_⟩
  · exact fun b => Memory.read_writeWord_of_outside _ _
  · refine ⟨_, Completes.exec (.load _ q a ?_), ?_⟩
    · exact hinside
    · rw [State.advance_reg, State.reg_setReg_self]
      exact Memory.readWord_writeWord_self s.mem a.toNat (s.reg r)

/-- Settles O38: the bytes stored are those of the encoding, and they stand where the fall-through leaves `pc`. -/
theorem storeToCodeIsFetched : Obligations.StoreToCodeIsFetched := by
  intro s r a i tail hrun hwf hnext hinside hbytes
  have hlen : (encode s.cfg.opcodes i).length + tail.length = 4 := by
    rw [← List.length_append, ← hbytes]
    rfl
  refine ⟨_, (Completes.store s r a hinside).exec, hnext.symm, instructionInMemoryRuns _ i hrun hwf ?_ ?_⟩
  · show s.pc + 6 + (encode s.cfg.opcodes i).length ≤ s.cfg.memSize
    omega
  · show ∀ (k : Nat) (hk : k < (encode s.cfg.opcodes i).length),
      (s.mem.writeWord a.toNat (s.reg r)).read (s.pc + 6 + k) = (encode s.cfg.opcodes i)[k]
    intro k hk
    have hk4 : k < 4 := lt_of_lt_of_le hk (Nat.le.intro hlen)
    have hstored : k < (wordBytes (s.reg r)).length := hk4
    rw [← hnext, Memory.read_writeWord_inside _ _ _ hk4, ← getElem_wordBytes _ hstored]
    rw [List.getElem_of_eq hbytes, List.getElem_append_left hk]

end Sys2Proof.Machine
end

section
/-! PROOFS. The results of 43_subroutine.md (O32 to O34) and 45_stack.md (O39 to O46), and the stack bounds (O47). -/

namespace Sys2Proof.Machine

variable {i : Instr} {s t u : State}

/-! ### The inversion of the completed rules -/

theorem completes_of_exec (h : exec i s = .next t) (hrun : t.run ≠ .stoppedFault) : Completes i s t := by
  obtain hdone | ⟨f, rfl⟩ := exec_cases h
  · exact hdone
  · exact absurd (State.raise_run s f) hrun

theorem Reg.byte_injective {r q : Reg} (h : r.byte = q.byte) : r = q := by
  have hr := regOperand_byte r
  rw [h, regOperand_byte] at hr
  exact (Except.ok.inj hr).symm

/-- What a completed PUSH leaves (45_stack.md R128). -/
def State.afterPush (s : State) (r : Reg) : State :=
  State.advance { s with mem := s.mem.writeWord (s.sp - 4) (s.reg r), sp := s.sp - 4 } 2

theorem completes_push_iff {r : Reg} : Completes (.push r.byte) s t ↔
    s.cfg.stackLimit + 4 < s.sp ∧ s.sp - 4 + 4 ≤ s.cfg.memSize ∧ s.afterPush r = t := by
  constructor
  · generalize hi : Instr.push r.byte = i
    intro h
    cases h
    case push q room fits =>
      obtain rfl : r = q := Reg.byte_injective (Instr.push.inj hi)
      exact ⟨room, fits, rfl⟩
    all_goals cases hi
  · rintro ⟨room, fits, rfl⟩
    exact .push s r room fits

theorem Completes.call_inv {addr : Word} (h : Completes (.call addr) s t) :
    s.cfg.stackLimit + 4 ≤ s.sp ∧ s.sp - 4 + 4 ≤ s.cfg.memSize ∧
      t = { s with
        mem := s.mem.writeWord (s.sp - 4) (w32 ((s.pc + 5 : Nat) : Int)), sp := s.sp - 4, pc := addr.toNat } := by
  cases h
  case call room fits _ => exact ⟨room, fits, rfl⟩

theorem Completes.pushAll_inv (h : Completes .pushAll s t) :
    s.cfg.stackLimit + 16 < s.sp ∧ s.sp - 4 + 4 ≤ s.cfg.memSize ∧ t.sp = s.sp - 16 := by
  cases h
  case pushAll room fits => exact ⟨room, fits, rfl⟩

/-- A PUSH from a running core leaves it running exactly where its rule completes. -/
theorem exec_push_running_iff {r : Reg} (hrun : s.run = .running) :
    exec (.push r.byte) s = .next t ∧ t.run = .running ↔ Completes (.push r.byte) s t := by
  constructor
  · rintro ⟨h, ht⟩
    exact completes_of_exec h (by simp [ht])
  · intro h
    obtain ⟨-, -, rfl⟩ := completes_push_iff.mp h
    exact ⟨h.exec, hrun⟩

/-! ### CALL and RET -/

/-- Settles O32: the pushed word is the address after the CALL, and no other byte changes. -/
theorem callPushesTheReturnAddress : Obligations.CallPushesTheReturnAddress := by
  intro s a htarget hroom hsp
  have hfits : s.sp - 4 + 4 ≤ s.cfg.memSize := by omega
  refine ⟨_, (Completes.call s a htarget hroom hfits).exec, rfl, ?_, fun b hb => ?_⟩
  · rw [Memory.readWord_writeWord_self, w32_natCast]
  · exact Memory.read_writeWord_of_outside _ _ (by omega)

/-- Settles O33: the popped word is the new program counter. -/
theorem retPopsTheProgramCounter : Obligations.RetPopsTheProgramCounter := fun s htop =>
  (Completes.ret s htop).exec

/-- Settles O34: RET pops the word the CALL pushed, which still stands at `sp`. -/
theorem callThenRetReturns : Obligations.CallThenRetReturns := by
  intro s t u a hcall hrun hpc hcfg hsp hword
  obtain ⟨hroom, hfits, rfl⟩ := (completes_of_exec hcall hrun).call_inv
  have htop : u.sp + 4 ≤ u.cfg.memSize := by rw [hcfg, hsp]; exact hfits
  have hrestored : u.sp + 4 = s.sp := by rw [hsp]; exact Nat.sub_add_cancel (by omega)
  have hreturn : (w32 ((s.pc + 5 : Nat) : Int)).toNat = s.pc + 5 := u32_w32_natCast hpc
  rw [Memory.readWord_writeWord_self] at hword
  rw [retPopsTheProgramCounter u htop, hword, hreturn, hrestored]

/-! ### PUSH and POP -/

/-- Settles O39: the register stands in the word below the old `sp`, and no other byte changes. -/
theorem pushWritesBelowSp : Obligations.PushWritesBelowSp := by
  intro s r hroom hsp
  have hfits : s.sp - 4 + 4 ≤ s.cfg.memSize := by omega
  refine ⟨_, (Completes.push s r hroom hfits).exec, rfl, Memory.readWord_writeWord_self .., fun b hb => ?_⟩
  exact Memory.read_writeWord_of_outside _ _ (by omega)

/-- Settles O40: the rule writes the word at `sp` to its register and falls through from the dropped stack. -/
theorem popReadsAtSp : Obligations.PopReadsAtSp := by
  intro s r htop
  obtain ⟨-, hreg, hothers⟩ := State.setReg_advance_spec s.dropWord r (s.mem.readWord s.sp) 2
  exact ⟨_, (Completes.pop s r htop).exec, rfl, hreg, hothers⟩

/-- Settles O41: POP reads the word that the PUSH wrote, at the `sp` it left. -/
theorem pushThenPopCopies : Obligations.PushThenPopCopies := by
  intro s t r q hpush hrun
  obtain ⟨hroom, hfits, rfl⟩ := completes_push_iff.mp (completes_of_exec hpush hrun)
  obtain ⟨u, hpop, hu, hreg, hothers⟩ := popReadsAtSp (s.afterPush r) q hfits
  refine ⟨u, hpop, hreg.trans (Memory.readWord_writeWord_self ..), ?_, hothers⟩
  rw [hu]
  exact Nat.sub_add_cancel (by omega)

/-- Settles O42: `sp` and STACK_LIMIT are multiples of 4, so more than 4 free bytes are 8 or more. -/
theorem pushNeedsEightFreeBytes : Obligations.PushNeedsEightFreeBytes := by
  intro s t r hinv hrun hpush
  have hhigh := hinv.sp_high
  have haligned := hinv.sp_aligned
  obtain ⟨-, hlimit, -⟩ := hinv.cfg_wf
  constructor
  · intro ht
    obtain ⟨hroom, -, -⟩ := completes_push_iff.mp ((exec_push_running_iff hrun).mp ⟨hpush, ht⟩)
    omega
  · intro hfree
    have hdone : Completes (.push r.byte) s (s.afterPush r) :=
      completes_push_iff.mpr ⟨by omega, by omega, rfl⟩
    obtain rfl : s.afterPush r = t := Host.Outcome.next.inj (hdone.exec.symm.trans hpush)
    exact hrun

/-! ### PUSH_ALL and POP_ALL -/

/-- The four words of a completed PUSH_ALL do not overlap: each reads back, and no byte outside them changes. -/
theorem Completes.pushAll_frame (h : Completes .pushAll s t) :
    t.mem.readWord (s.sp - 4) = s.reg .r1 ∧ t.mem.readWord (s.sp - 8) = s.reg .r2 ∧
      t.mem.readWord (s.sp - 12) = s.reg .r3 ∧ t.mem.readWord (s.sp - 16) = s.reg .r4 ∧
      ∀ b, b < s.sp - 16 ∨ s.sp ≤ b → t.mem.read b = s.mem.read b := by
  cases h
  case pushAll room fits =>
    refine ⟨?_, ?_, ?_, Memory.readWord_writeWord_self .., fun b hb => ?_⟩
    · rw [Memory.readWord_writeWord_of_disjoint _ _ (by omega), Memory.readWord_writeWord_of_disjoint _ _ (by omega),
        Memory.readWord_writeWord_of_disjoint _ _ (by omega), Memory.readWord_writeWord_self]
    · rw [Memory.readWord_writeWord_of_disjoint _ _ (by omega), Memory.readWord_writeWord_of_disjoint _ _ (by omega),
        Memory.readWord_writeWord_self]
    · rw [Memory.readWord_writeWord_of_disjoint _ _ (by omega), Memory.readWord_writeWord_self]
    · rw [Memory.read_writeWord_of_outside _ _ (by omega), Memory.read_writeWord_of_outside _ _ (by omega),
        Memory.read_writeWord_of_outside _ _ (by omega), Memory.read_writeWord_of_outside _ _ (by omega)]

/-- Settles O43: the rule completes with headroom, and leaves the frame. -/
theorem pushAllWritesTheFrame : Obligations.PushAllWritesTheFrame := by
  intro s hroom hsp
  have hdone := Completes.pushAll s hroom (by omega)
  exact ⟨_, hdone.exec, rfl, hdone.pushAll_frame⟩

/-- Settles O44: the rule reads the four words of the frame. -/
theorem popAllReadsTheFrame : Obligations.PopAllReadsTheFrame := fun s htop =>
  ⟨_, (Completes.popAll s htop).exec, rfl, rfl, rfl, rfl, rfl⟩

theorem Memory.readWord_congr {m n : Memory} {a b : Nat} (h : ∀ k < 4, m.read (a + k) = n.read (b + k)) :
    m.readWord a = n.readWord b := by
  have h0 := h 0 (by decide)
  have h1 := h 1 (by decide)
  have h2 := h 2 (by decide)
  have h3 := h 3 (by decide)
  simp only [Nat.add_zero] at h0
  simp only [Memory.readWord, h0, h1, h2, h3]

/-- Settles O45: POP_ALL reads the words of the frame that PUSH_ALL wrote. -/
theorem pushAllThenPopAllRestores : Obligations.PushAllThenPopAllRestores := by
  intro s t u hpush hrun hcfg hsp hmem
  have hdone := completes_of_exec hpush hrun
  obtain ⟨hr1, hr2, hr3, hr4, -⟩ := hdone.pushAll_frame
  obtain ⟨hroom, hfits, hmoved⟩ := hdone.pushAll_inv
  have hword (j : Nat) (hj : j + 4 ≤ 16) : u.mem.readWord (u.sp + j) = t.mem.readWord (t.sp + j) :=
    Memory.readWord_congr fun k hk => by
      rw [Nat.add_assoc, Nat.add_assoc]
      exact hmem (j + k) (by omega)
  have htop : u.sp + 16 ≤ u.cfg.memSize := by rw [hcfg, hdone.cfg]; omega
  have hrestored : u.sp + 16 = s.sp := by omega
  have h1 : u.mem.readWord (u.sp + 12) = s.regs.r1 := by
    rw [hword 12 (by decide), show t.sp + 12 = s.sp - 4 by omega]; exact hr1
  have h2 : u.mem.readWord (u.sp + 8) = s.regs.r2 := by
    rw [hword 8 (by decide), show t.sp + 8 = s.sp - 8 by omega]; exact hr2
  have h3 : u.mem.readWord (u.sp + 4) = s.regs.r3 := by
    rw [hword 4 (by decide), show t.sp + 4 = s.sp - 12 by omega]; exact hr3
  have h4 : u.mem.readWord u.sp = s.regs.r4 := by
    rw [← Nat.add_zero u.sp, hword 0 (by decide), show t.sp + 0 = s.sp - 16 by omega]; exact hr4
  rw [(Completes.popAll u htop).exec, h1, h2, h3, h4, hrestored]
  rfl

/-! ### PUSH_ALL as four PUSHes -/

theorem State.execAll_push_cons {r : Reg} {is : List Instr} (hrun : s.run = .running) :
    State.execAll (.push r.byte :: is) s = some t ↔
      (s.cfg.stackLimit + 4 < s.sp ∧ s.sp - 4 + 4 ≤ s.cfg.memSize) ∧ State.execAll is (s.afterPush r) = some t := by
  simp only [State.execAll_cons_eq_some, ← and_assoc, exec_push_running_iff hrun, completes_push_iff]
  constructor
  · rintro ⟨u, ⟨hchecks, rfl⟩, h⟩
    exact ⟨hchecks, h⟩
  · rintro ⟨hchecks, h⟩
    exact ⟨_, ⟨hchecks, rfl⟩, h⟩

/-- Four PUSHes in turn complete exactly with the headroom of a PUSH_ALL, and leave its state but for `pc`. -/
theorem State.execAll_four_pushes (hrun : s.run = .running) :
    State.execAll [.push Reg.r1.byte, .push Reg.r2.byte, .push Reg.r3.byte, .push Reg.r4.byte] s = some t ↔
      (s.cfg.stackLimit + 16 < s.sp ∧ s.sp - 4 + 4 ≤ s.cfg.memSize) ∧
        (((s.afterPush .r1).afterPush .r2).afterPush .r3).afterPush .r4 = t := by
  rw [State.execAll_push_cons hrun, State.execAll_push_cons (s := s.afterPush .r1) hrun,
    State.execAll_push_cons (s := (s.afterPush .r1).afterPush .r2) hrun,
    State.execAll_push_cons (s := ((s.afterPush .r1).afterPush .r2).afterPush .r3) hrun]
  simp only [State.execAll, Option.some.injEq, ← and_assoc]
  refine and_congr_left fun _ => ?_
  simp only [State.afterPush, State.advance_cfg, State.advance_sp]
  omega

/-- The frame of PUSH_ALL is that of the four PUSHes, word by word: only `pc` differs. -/
theorem Completes.pushAll_of_afterPush (hroom : s.cfg.stackLimit + 16 < s.sp) (hfits : s.sp - 4 + 4 ≤ s.cfg.memSize) :
    Completes .pushAll s
      { (((s.afterPush .r1).afterPush .r2).afterPush .r3).afterPush .r4 with pc := s.pc + 1 } := by
  have hdone := Completes.pushAll s hroom hfits
  simpa only [State.afterPush, State.advance, State.reg, Nat.sub_sub, Nat.reduceAdd] using hdone

/-- Settles O46: PUSH_ALL has the checks of the four PUSHes, so it completes or raises where they complete or stop. -/
theorem pushAllIsFourPushes : Obligations.PushAllIsFourPushes := by
  intro s hrun
  constructor
  · intro u hu
    obtain ⟨⟨hroom, hfits⟩, rfl⟩ := (State.execAll_four_pushes hrun).mp hu
    exact ⟨rfl, (Completes.pushAll_of_afterPush hroom hfits).exec⟩
  · intro hnone
    obtain ⟨t, ht⟩ := exec_answers .pushAll s
    obtain hdone | ⟨f, rfl⟩ := exec_cases ht
    · obtain ⟨hroom, hfits, -⟩ := hdone.pushAll_inv
      have hsome := (State.execAll_four_pushes hrun).mpr ⟨⟨hroom, hfits⟩, rfl⟩
      rw [hnone] at hsome
      cases hsome
    · exact ⟨f, ht⟩

/-! ### The stack bounds -/

theorem State.topWord_of_underflow (h : s.cfg.memSize < s.sp + 4) : s.topWord = .error .stackUnderflow := by
  rw [State.topWord_eq, if_neg h.not_ge]

/-- Both services make the underflow check first (46_interrupt_service.md R144, R146). -/
theorem exec_int_of_underflow (h : s.cfg.memSize < s.sp + 4) {n : Byte} {service : Service}
    (hn : serviceOperand s.cfg.ints n = .ok service) : exec (.int n) s = .next (s.raise .stackUnderflow) := by
  simp only [exec, execInt, hn, ok_bind]
  cases service with
  | printInteger => simp only [State.printInteger, State.topWord_of_underflow h]; rfl
  | printString => simp only [State.printString, State.topWord_of_underflow h]; rfl

/-- The byte of PRINT_STRING selects a service under any map, an inadmissible one included. -/
theorem exists_serviceOperand_printString (m : IntMap) : ∃ service, serviceOperand m m.printString = .ok service := by
  by_cases h : m.printString = m.printInteger
  · exact ⟨_, serviceOperand_eq_printInteger.mpr h⟩
  · exact ⟨_, serviceOperand_eq_printString.mpr ⟨h, rfl⟩⟩

theorem exec_push_of_full {r : Reg} (h : s.sp ≤ s.cfg.stackLimit + 4) :
    exec (.push r.byte) s = .next (s.raise .stackOverflow) := by
  simp only [exec, execPush, regOperand_byte, ok_bind, check_of_not _ h.not_gt]
  rfl

theorem exec_pushAll_of_full (h : s.sp ≤ s.cfg.stackLimit + 16) :
    exec .pushAll s = .next (s.raise .stackOverflow) := by
  simp only [exec, execPushAll, check_of_not _ h.not_gt]
  rfl

theorem exec_call_of_full {a : Word} (htarget : a.toNat < s.cfg.memSize) (h : s.sp < s.cfg.stackLimit + 4) :
    exec (.call a) s = .next (s.raise .stackOverflow) := by
  simp only [exec, execCall, jumpTarget_eq, if_pos htarget, ok_bind, check_of_not _ h.not_ge]
  rfl

theorem exec_pop_of_underflow {r : Reg} (h : s.cfg.memSize < s.sp + 4) :
    exec (.pop r.byte) s = .next (s.raise .stackUnderflow) := by
  simp only [exec, execPop, regOperand_byte, ok_bind, State.topWord_of_underflow h]
  rfl

theorem exec_ret_of_underflow (h : s.cfg.memSize < s.sp + 4) : exec .ret s = .next (s.raise .stackUnderflow) := by
  simp only [exec, execRet, State.topWord_of_underflow h]
  rfl

theorem exec_popAll_of_underflow (h : s.cfg.memSize < s.sp + 16) :
    exec .popAll s = .next (s.raise .stackUnderflow) := by
  simp only [exec, execPopAll, check_of_not _ h.not_ge]
  rfl

/-- Settles O47: each rule's stack check fails on its own bound, before its first write. -/
theorem stackBoundsTrap : Obligations.StackBoundsTrap := by
  intro s r
  obtain ⟨service, hservice⟩ := exists_serviceOperand_printString s.cfg.ints
  exact ⟨exec_push_of_full, exec_pushAll_of_full, fun _ => exec_call_of_full,
    fun h => ⟨exec_pop_of_underflow h, exec_ret_of_underflow h,
      exec_int_of_underflow h (serviceOperand_printInteger _), exec_int_of_underflow h hservice⟩,
    exec_popAll_of_underflow⟩

end Sys2Proof.Machine
end

section
/-! PROOFS. The results of 46_interrupt_service.md (O48 to O50) and 47_control.md (O52). -/

namespace Sys2Proof.Machine

/-- Settles O48: the popped word is sent as an integer event. -/
theorem printIntegerSendsTheTopWord : Obligations.PrintIntegerSendsTheTopWord := fun s htop =>
  (Completes.printInteger s _ rfl htop).exec

/-- Settles O49: the given run is the string at the popped address. -/
theorem printStringSendsTheString : Obligations.PrintStringSendsTheString := by
  intro s bs hints htop hinside hrun hzero
  have hread : s.mem.readBytes (s.mem.readWord s.sp).toNat bs.length = bs :=
    Memory.readBytes_eq fun k hk => (hrun k hk).1
  have hnonzero : ∀ b ∈ bs, b ≠ 0 := fun b hb => by
    obtain ⟨k, hk, rfl⟩ := List.getElem_of_mem hb
    exact (hrun k hk).2
  have hstring : s.stringAt (u32 (s.mem.readWord s.sp)) = .ok bs :=
    (State.stringAt_eq_ok ..).mpr ⟨hinside, hread.symm, hnonzero, hzero⟩
  exact (Completes.printString s _ bs ⟨Ne.symm hints, rfl⟩ htop hstring).exec

/-- Settles O50: the scan of the string ends without a zero byte, before anything is popped or sent. -/
theorem unterminatedStringFaults : Obligations.UnterminatedStringFaults := by
  intro s hints htop hnonzero
  have hstring := State.stringAt_of_unterminated s (u32 (s.mem.readWord s.sp)) hnonzero
  simp only [exec, execInt, serviceOperand_printString hints, ok_bind, State.printString, State.topWord_eq,
    if_pos htop, hstring]
  rfl

/-- Settles O52: neither rule has a check, and each writes the fields named. -/
theorem haltStopsAndNopAdvances : Obligations.HaltStopsAndNopAdvances := fun s =>
  ⟨(Completes.halt s).exec, (Completes.nop s).exec⟩

end Sys2Proof.Machine
end

section
/-! PROOFS. The whole-machine rules: who writes registers (O53), memory (O54), `sp` (O55), `pc` (O56), the comparison
result (O57) and the fault flags (O58). -/

namespace Sys2Proof.Machine

variable {i : Instr} {s t : State}

/-- Settles O53: a completed rule writes the registers that `writesReg` names, a raise writes none. -/
theorem registersWrittenOnlyByTheirWriters : Obligations.RegistersWrittenOnlyByTheirWriters := fun _ _ _ _ =>
  exec_reg

/-- Settles O54: every word a completed rule writes lies inside the stored span, and a raise writes none. -/
theorem memoryWrittenOnlyInTheStoredSpan : Obligations.MemoryWrittenOnlyInTheStoredSpan := by
  intro i s t c h hc
  obtain hdone | ⟨f, rfl⟩ := exec_cases h
  · refine hdone.mem_induction (fun m => m.read c = s.mem.read c) (fun m a v hlow hhigh _ hm => ?_) rfl
    rw [Memory.read_writeWord_of_outside m v (by omega), hm]
  · rw [State.raise_mem]

/-- Settles O55: a completed rule moves `sp` by the instruction's own amount. -/
theorem spMovesOnlyByStackInstructions : Obligations.SpMovesOnlyByStackInstructions := fun _ _ _ h hrun =>
  (completes_of_exec h hrun).sp

/-- Settles O56: a completed rule that is no control transfer falls through by its length. -/
theorem pcFallsThroughByTheLength : Obligations.PcFallsThroughByTheLength := fun _ _ _ h hrun =>
  (completes_of_exec h hrun).pc

/-- No rule but that of CMP has the comparison result among the fields it writes. -/
theorem Completes.cmp_eq (h : Completes i s t) (hi : i.mnemonic ≠ .cmp) : t.cmp = s.cmp := by
  cases h
  case cmp => exact absurd rfl hi
  case ja | je | jb => exact State.branchOn_cmp ..
  all_goals rfl

theorem Completes.cmp_ne_none (h : Completes i s t) (hi : i.mnemonic = .cmp) : t.cmp ≠ .none := by
  cases h
  case cmp => exact compareSigned_ne_none _ _
  all_goals cases hi

/-- Settles O57: the rule of CMP leaves one of the three orders, and no other rule and no raise writes the result. -/
theorem cmpWrittenOnlyByCmp : Obligations.CmpWrittenOnlyByCmp := by
  intro i s t h
  refine ⟨fun hi => ?_, fun hi hrun => (completes_of_exec h hrun).cmp_ne_none hi⟩
  obtain hdone | ⟨f, rfl⟩ := exec_cases h
  · exact hdone.cmp_eq hi
  · exact State.raise_cmp s f

/-- A step keeps the fault flags or is the raise of a fault. -/
theorem step_faults (h : step s = .next t) : t.faults = s.faults ∨ ∃ f, t = s.raise f := by
  obtain ⟨-, ⟨i, -, hexec⟩ | ⟨f, -, rfl⟩⟩ := step_eq_next.mp h
  · exact (exec_cases hexec).imp_left Completes.faults
  · exact .inr ⟨f, rfl⟩

/-- Settles O58: a completed rule keeps every flag, and a raise sets the one of its fault. -/
theorem faultFlagsAreSticky : Obligations.FaultFlagsAreSticky := by
  intro s t f h
  obtain hkept | ⟨g, rfl⟩ := step_faults h
  · rw [hkept]
    exact ⟨id, fun hclear hset => absurd (hclear.symm.trans hset) Bool.false_ne_true⟩
  · rw [State.raise_faults, FaultFlags.has_set, Bool.or_eq_true, decide_eq_true_eq]
    refine ⟨.inr, fun hclear hset => ?_⟩
    obtain rfl | hset := hset
    · rfl
    · exact absurd (hclear.symm.trans hset) Bool.false_ne_true

end Sys2Proof.Machine
end
